-- ==== Sys2Proof/Word.lean ====
section
/-! DEFINITION. The widths of the machine's quantities (spec R6, R22, R24, R25, R91). Everything is unsigned. -/

namespace Sys2Proof

/-- An 8-bit quantity: a memory byte, a general register, a timer, an `NN` immediate. -/
abbrev Byte := BitVec 8

/-- A 16-bit quantity: an instruction word, `I`, `PC`, a stack slot. -/
abbrev Word := BitVec 16

/-- A 4-bit field that is used as bits or as a small number: the family `op`, the sprite height `N`. -/
abbrev Nibble := BitVec 4

/-- The 12-bit `NNN` field. -/
abbrev Addr12 := BitVec 12

/-- The ordinal of a general register, V0 to VF (R22). -/
abbrev Reg := Fin 16

/-- The ordinal of a key, 0 to 15 (R29, R246: the operation's domain has exactly 16 values). -/
abbrev Key := Fin 16

/-- `VF`, the register that doubles as the flag (R23). -/
abbrev vf : Reg := 15

end Sys2Proof
end

