-- ==== Sys2Proof/Config.lean ====
section
/-! DEFINITION. The parameters of the core (spec R5): the fixed sizes, the immutable configuration that
construction supplies (R32, R33), the driver's fault policy (R280) and the one free value (R249). -/

namespace Sys2Proof

/-! ## Fixed sizes (R5)

The other sizes of R5 stand in the types: 16 registers and 16 keys in `Reg` and `Key`, the widths in `Byte` and `Word`, the
stack depth 16 and the 64x32 screen in the fields of `State`, the 80 font bytes in `Font`. -/

/-- `MEM_SIZE`: the extent of memory in bytes (R21). -/
abbrev memSize : Nat := 4096

/-- `PROG_BASE`: where a program is loaded and where execution starts (R37, R61). -/
abbrev progBase : Nat := 0x200

/-- `PROG_MAX`: the longest program `load` takes, 4096 - 0x200 (R77, R271). -/
abbrev progMax : Nat := 3584

/-- `FONT_GLYPH_BYTES`: the bytes of one glyph, so that glyph d stands at 5 * d (R33, R172). -/
abbrev glyphBytes : Nat := 5

/-! ## Configuration supplied at construction -/

/-- The quirks configuration `Q`: four independent booleans, all 16 combinations legal (R32, R230). -/
structure Quirks where
  /-- `8XY6`, `8XYE`: off operates on `V[Y]`, on operates on `V[X]` (R148, R150). -/
  shiftSource : Bool
  /-- `BNNN`: off is `NNN + V[0]`, on is `V[X] + NN` (R128). -/
  jumpOffset : Bool
  /-- `FX55`, `FX65`: off leaves `I`, on advances it by X + 1 (R174, R175). -/
  memoryIncrement : Bool
  /-- `DXYN`: off wraps every coordinate, on clips at the right and bottom edge (R191). -/
  spriteClip : Bool
deriving DecidableEq, Repr

/-- The 80 bytes of the font set: 16 glyphs of 5 bytes (R33). -/
abbrev Font := Vector Byte 80

/-- What construction fixes for the life of the core: `Q` and `FONT` (R20, R32, R33). Nothing writes it. -/
structure CoreConfig where
  q : Quirks
  font : Font
deriving DecidableEq, Repr

/-- `FAULT_POLICY`: what the driver does after an error (R280). It belongs to the driver, not to the core. -/
inductive FaultPolicy where
  /-- No further operation: the error ends the run (the spec's default). -/
  | halt
  /-- The driver goes on from the state the error left. -/
  | skip
deriving DecidableEq, Repr

/-! ## The free value -/

/-- DESIGN CHOICE (assumption 4; safe). The random byte of the n-th executed `CXNN` (R249: "chosen freely by the
environment each time"). It has no body, so no proof can learn anything about it. -/
opaque Config.rnd : Nat → Byte

end Sys2Proof
end

