-- ==== Sys2Proof/Syntax.lean ====
section
/-! DEFINITION. The instruction set (spec R95): one constructor per row of spec/opcode_table.json, in the table's order,
each carrying its operand fields at their exact widths (R91, R93: every value of every field is legal). -/

namespace Sys2Proof

/-- The six instruction formats (R92). -/
inductive Format where
  | fix | nnn | xnn | xy | xyn | x
deriving DecidableEq, Repr

/-- The 34 instructions of base CHIP-8 (R95). -/
inductive Instr where
  /-- `00E0` CLS -/
  | cls
  /-- `00EE` RET -/
  | ret
  /-- `1NNN` JP NNN -/
  | jp (nnn : Addr12)
  /-- `2NNN` CALL NNN -/
  | call (nnn : Addr12)
  /-- `3XNN` SE VX, NN -/
  | seImm (x : Reg) (nn : Byte)
  /-- `4XNN` SNE VX, NN -/
  | sneImm (x : Reg) (nn : Byte)
  /-- `5XY0` SE VX, VY -/
  | seReg (x y : Reg)
  /-- `6XNN` LD VX, NN -/
  | ldImm (x : Reg) (nn : Byte)
  /-- `7XNN` ADD VX, NN -/
  | addImm (x : Reg) (nn : Byte)
  /-- `8XY0` LD VX, VY -/
  | ldReg (x y : Reg)
  /-- `8XY1` OR VX, VY -/
  | orReg (x y : Reg)
  /-- `8XY2` AND VX, VY -/
  | andReg (x y : Reg)
  /-- `8XY3` XOR VX, VY -/
  | xorReg (x y : Reg)
  /-- `8XY4` ADD VX, VY -/
  | addReg (x y : Reg)
  /-- `8XY5` SUB VX, VY -/
  | subReg (x y : Reg)
  /-- `8XY6` SHR VX, VY -/
  | shr (x y : Reg)
  /-- `8XY7` SUBN VX, VY -/
  | subn (x y : Reg)
  /-- `8XYE` SHL VX, VY -/
  | shl (x y : Reg)
  /-- `9XY0` SNE VX, VY -/
  | sneReg (x y : Reg)
  /-- `ANNN` LD I, NNN -/
  | ldI (nnn : Addr12)
  /-- `BNNN` JP V0, NNN (the quirk reads NNN as X ++ NN) -/
  | jpV0 (nnn : Addr12)
  /-- `CXNN` RND VX, NN -/
  | rnd (x : Reg) (nn : Byte)
  /-- `DXYN` DRW VX, VY, N -/
  | drw (x y : Reg) (n : Nibble)
  /-- `EX9E` SKP VX -/
  | skp (x : Reg)
  /-- `EXA1` SKNP VX -/
  | sknp (x : Reg)
  /-- `FX07` LD VX, DT -/
  | ldVxDt (x : Reg)
  /-- `FX0A` LD VX, K -/
  | ldVxK (x : Reg)
  /-- `FX15` LD DT, VX -/
  | ldDtVx (x : Reg)
  /-- `FX18` LD ST, VX -/
  | ldStVx (x : Reg)
  /-- `FX1E` ADD I, VX -/
  | addI (x : Reg)
  /-- `FX29` LD F, VX -/
  | ldF (x : Reg)
  /-- `FX33` LD B, VX -/
  | ldB (x : Reg)
  /-- `FX55` LD [I], VX -/
  | storeRegs (x : Reg)
  /-- `FX65` LD VX, [I] -/
  | loadRegs (x : Reg)
deriving DecidableEq, Repr

/-- The format of each instruction (R92, column "Used by"). -/
def Instr.format : Instr → Format
  | .cls | .ret => .fix
  | .jp _ | .call _ | .ldI _ | .jpV0 _ => .nnn
  | .seImm _ _ | .sneImm _ _ | .ldImm _ _ | .addImm _ _ | .rnd _ _ => .xnn
  | .seReg _ _ | .sneReg _ _ | .ldReg _ _ | .orReg _ _ | .andReg _ _ | .xorReg _ _
  | .addReg _ _ | .subReg _ _ | .shr _ _ | .subn _ _ | .shl _ _ => .xy
  | .drw _ _ _ => .xyn
  | .skp _ | .sknp _ | .ldVxDt _ | .ldVxK _ | .ldDtVx _ | .ldStVx _ | .addI _ | .ldF _
  | .ldB _ | .storeRegs _ | .loadRegs _ => .x

end Sys2Proof
end

