-- ==== Sys2Proof/WellFormed.lean ====
section
/-! DEFINITION. Well-formedness. The operand types of `Instr` carry the spec's ranges themselves (R91, R93: all values of
every operand field are legal), so an ill-formed instruction cannot be written; the checks stand where a plain number
or a byte sequence from outside becomes an operand, a key or a program. -/

namespace Sys2Proof

/-- A register ordinal written as a number: 0 to 15 (R22). -/
def regOperand (n : Nat) : Option Reg := if h : n < 16 then some ⟨n, h⟩ else none

/-- A key ordinal handed to `set_key_state`: 0 to 15 (R246, D25). -/
def keyOperand (n : Nat) : Option Key := if h : n < 16 then some ⟨n, h⟩ else none

/-- An `N` immediate: 0 to 15 (R91). -/
def nibbleOperand (n : Nat) : Option Nibble := if n < 16 then some (BitVec.ofNat 4 n) else none

/-- An `NN` immediate: 0 to 255 (R91). -/
def byteOperand (n : Nat) : Option Byte := if n < 256 then some (BitVec.ofNat 8 n) else none

/-- An `NNN` address: 0 to 4095 (R91). -/
def addrOperand (n : Nat) : Option Addr12 := if n < 4096 then some (BitVec.ofNat 12 n) else none

/-- A program that `load` accepts: at most 3584 bytes (R77, R271). -/
def programFits (bytes : List Byte) : Bool := bytes.length ≤ progMax

/-- Every instruction's operands lie in their fields (R91). The types say so already: see
`Laws.wellFormed_always`. -/
def Instr.wellFormed : Instr → Bool
  | .cls | .ret => true
  | .jp nnn | .call nnn | .ldI nnn | .jpV0 nnn => nnn.toNat < 4096
  | .seImm x nn | .sneImm x nn | .ldImm x nn | .addImm x nn | .rnd x nn => x.val < 16 && nn.toNat < 256
  | .seReg x y | .sneReg x y | .ldReg x y | .orReg x y | .andReg x y | .xorReg x y
  | .addReg x y | .subReg x y | .shr x y | .subn x y | .shl x y => x.val < 16 && y.val < 16
  | .drw x y n => x.val < 16 && y.val < 16 && n.toNat < 16
  | .skp x | .sknp x | .ldVxDt x | .ldVxK x | .ldDtVx x | .ldStVx x | .addI x | .ldF x
  | .ldB x | .storeRegs x | .loadRegs x => x.val < 16

end Sys2Proof
end

