-- ==== Sys2Proof/Decode.lean ====
section
/-! DEFINITION. Decoding and encoding (spec 30_encoding.md). The bit patterns are those of spec/opcode_table.json
(assumption 1: the spec marks them as general knowledge, G1, G2). Matching is strict (R94, D11, assumption 11). -/

namespace Sys2Proof

/-! ## Fields of a word (R91) -/

/-- `op = w[15:12]`, the family. -/
def opField (w : Word) : Nibble := w.extractLsb' 12 4
/-- `X = w[11:8]`. -/
def xField (w : Word) : Reg := (w.extractLsb' 8 4).toFin
/-- `Y = w[7:4]`. -/
def yField (w : Word) : Reg := (w.extractLsb' 4 4).toFin
/-- `N = w[3:0]`. -/
def nField (w : Word) : Nibble := w.extractLsb' 0 4
/-- `NN = w[7:0]`. -/
def nnField (w : Word) : Byte := w.extractLsb' 0 8
/-- `NNN = w[11:0]`. -/
def nnnField (w : Word) : Addr12 := w.extractLsb' 0 12

/-! ## Decoding (R94) -/

/-- Family 8: the sub-operation is `N` (R94). -/
def decodeArith (w : Word) : Option Instr :=
  match (nField w).toNat with
  | 0x0 => some (.ldReg (xField w) (yField w))
  | 0x1 => some (.orReg (xField w) (yField w))
  | 0x2 => some (.andReg (xField w) (yField w))
  | 0x3 => some (.xorReg (xField w) (yField w))
  | 0x4 => some (.addReg (xField w) (yField w))
  | 0x5 => some (.subReg (xField w) (yField w))
  | 0x6 => some (.shr (xField w) (yField w))
  | 0x7 => some (.subn (xField w) (yField w))
  | 0xE => some (.shl (xField w) (yField w))
  | _ => none

/-- Family E: the sub-operation is `NN` (R94). -/
def decodeKey (w : Word) : Option Instr :=
  match (nnField w).toNat with
  | 0x9E => some (.skp (xField w))
  | 0xA1 => some (.sknp (xField w))
  | _ => none

/-- Family F: the sub-operation is `NN` (R94). -/
def decodeMisc (w : Word) : Option Instr :=
  match (nnField w).toNat with
  | 0x07 => some (.ldVxDt (xField w))
  | 0x0A => some (.ldVxK (xField w))
  | 0x15 => some (.ldDtVx (xField w))
  | 0x18 => some (.ldStVx (xField w))
  | 0x1E => some (.addI (xField w))
  | 0x29 => some (.ldF (xField w))
  | 0x33 => some (.ldB (xField w))
  | 0x55 => some (.storeRegs (xField w))
  | 0x65 => some (.loadRegs (xField w))
  | _ => none

/-- The decode procedure of R94, total on all 65536 words; `none` is the spec's `Unknown`. -/
def decode (w : Word) : Option Instr :=
  match (opField w).toNat with
  | 0x0 => if w = 0x00E0 then some .cls else if w = 0x00EE then some .ret else none
  | 0x1 => some (.jp (nnnField w))
  | 0x2 => some (.call (nnnField w))
  | 0x3 => some (.seImm (xField w) (nnField w))
  | 0x4 => some (.sneImm (xField w) (nnField w))
  | 0x5 => if nField w = 0 then some (.seReg (xField w) (yField w)) else none
  | 0x6 => some (.ldImm (xField w) (nnField w))
  | 0x7 => some (.addImm (xField w) (nnField w))
  | 0x8 => decodeArith w
  | 0x9 => if nField w = 0 then some (.sneReg (xField w) (yField w)) else none
  | 0xA => some (.ldI (nnnField w))
  | 0xB => some (.jpV0 (nnnField w))
  | 0xC => some (.rnd (xField w) (nnField w))
  | 0xD => some (.drw (xField w) (yField w) (nField w))
  | 0xE => decodeKey w
  | 0xF => decodeMisc w
  | _ => none

/-! ## Bytes (R64, R90) -/

/-- The word whose high byte stands at the lower address (R64: big-endian). -/
def wordOfBytes (hi lo : Byte) : Word := hi ++ lo

/-- The bytes of a word in the order they stand in memory, high byte first (R64, R101). -/
def bytesOfWord (w : Word) : List Byte := [w.extractLsb' 8 8, w.extractLsb' 0 8]

/-- What decoding a byte sequence answers. -/
inductive DecodeResult where
  /-- An instruction and the bytes after it. -/
  | instr (i : Instr) (rest : List Byte)
  /-- Fewer than two bytes are left. -/
  | truncated
  /-- The word is illegal (R96). -/
  | unknownOpcode (w : Word)
deriving DecidableEq, Repr

/-- Decode the first instruction of a byte sequence: every instruction is two bytes (R90). -/
def decodeBytes : List Byte → DecodeResult
  | hi :: lo :: rest =>
    match decode (wordOfBytes hi lo) with
    | some i => .instr i rest
    | none => .unknownOpcode (wordOfBytes hi lo)
  | _ => .truncated

/-- The host's question: the instruction read from an instruction whose bits are `w`, numbered as the opcode table
numbers them; the one word is laid out high byte first, as the hardware stores it. -/
def decodeTableWord (nbits w : Nat) : Option Instr :=
  match decodeBytes (bytesOfWord (BitVec.ofNat 16 (w % 2 ^ nbits))) with
  | .instr i _ => some i
  | .truncated => none
  | .unknownOpcode _ => none

/-! ## Encoding (R92, R101) -/

/-- A register ordinal as the 4-bit field that selects it. -/
def regBits (r : Reg) : Nibble := BitVec.ofFin r

/-- Format NNN: `op ++ NNN`. -/
def wordNNN (op : Nibble) (nnn : Addr12) : Word := op ++ nnn
/-- Format XNN and, with a fixed `nn`, format X: `op ++ X ++ NN`. -/
def wordXNN (op : Nibble) (x : Reg) (nn : Byte) : Word := op ++ regBits x ++ nn
/-- Format XYN and, with a fixed `n`, format XY: `op ++ X ++ Y ++ N`. -/
def wordXYN (op : Nibble) (x y : Reg) (n : Nibble) : Word := op ++ regBits x ++ regBits y ++ n

/-- The word of each instruction (R101, with the patterns of R95). -/
def encode : Instr → Word
  | .cls => 0x00E0
  | .ret => 0x00EE
  | .jp nnn => wordNNN 0x1 nnn
  | .call nnn => wordNNN 0x2 nnn
  | .seImm x nn => wordXNN 0x3 x nn
  | .sneImm x nn => wordXNN 0x4 x nn
  | .seReg x y => wordXYN 0x5 x y 0x0
  | .ldImm x nn => wordXNN 0x6 x nn
  | .addImm x nn => wordXNN 0x7 x nn
  | .ldReg x y => wordXYN 0x8 x y 0x0
  | .orReg x y => wordXYN 0x8 x y 0x1
  | .andReg x y => wordXYN 0x8 x y 0x2
  | .xorReg x y => wordXYN 0x8 x y 0x3
  | .addReg x y => wordXYN 0x8 x y 0x4
  | .subReg x y => wordXYN 0x8 x y 0x5
  | .shr x y => wordXYN 0x8 x y 0x6
  | .subn x y => wordXYN 0x8 x y 0x7
  | .shl x y => wordXYN 0x8 x y 0xE
  | .sneReg x y => wordXYN 0x9 x y 0x0
  | .ldI nnn => wordNNN 0xA nnn
  | .jpV0 nnn => wordNNN 0xB nnn
  | .rnd x nn => wordXNN 0xC x nn
  | .drw x y n => wordXYN 0xD x y n
  | .skp x => wordXNN 0xE x 0x9E
  | .sknp x => wordXNN 0xE x 0xA1
  | .ldVxDt x => wordXNN 0xF x 0x07
  | .ldVxK x => wordXNN 0xF x 0x0A
  | .ldDtVx x => wordXNN 0xF x 0x15
  | .ldStVx x => wordXNN 0xF x 0x18
  | .addI x => wordXNN 0xF x 0x1E
  | .ldF x => wordXNN 0xF x 0x29
  | .ldB x => wordXNN 0xF x 0x33
  | .storeRegs x => wordXNN 0xF x 0x55
  | .loadRegs x => wordXNN 0xF x 0x65

/-- The two bytes of an instruction, high byte first (R101). -/
def encodeBytes (i : Instr) : List Byte := bytesOfWord (encode i)

end Sys2Proof
end

