-- ==== Sys2Proof/Machine/ResetImage.lean ====
section
/-! DEFINITION. What construction puts into the machine where the spec leaves a parameter open: the default font, the
quirk settings of `State.reset`, and the reset contents of memory, which are what an unlisted address reads as. -/

namespace Sys2Proof.Machine

/-- The default `FONT`, glyph by glyph (the table of R33; PRESUMED, assumption 2: the spec gives it from general
knowledge). -/
def defaultGlyphs : List (List Byte) :=
  [[0xF0, 0x90, 0x90, 0x90, 0xF0], [0x20, 0x60, 0x20, 0x20, 0x70], [0xF0, 0x10, 0xF0, 0x80, 0xF0],
   [0xF0, 0x10, 0xF0, 0x10, 0xF0]] ++
  [[0x90, 0x90, 0xF0, 0x10, 0x10], [0xF0, 0x80, 0xF0, 0x10, 0xF0], [0xF0, 0x80, 0xF0, 0x90, 0xF0],
   [0xF0, 0x10, 0x20, 0x40, 0x40]] ++
  [[0xF0, 0x90, 0xF0, 0x90, 0xF0], [0xF0, 0x90, 0xF0, 0x10, 0xF0], [0xF0, 0x90, 0xF0, 0x90, 0x90],
   [0xE0, 0x90, 0xE0, 0x90, 0xE0]] ++
  [[0xF0, 0x80, 0x80, 0x80, 0xF0], [0xE0, 0x90, 0x90, 0x90, 0xE0], [0xF0, 0x80, 0xF0, 0x80, 0xF0],
   [0xF0, 0x80, 0xF0, 0x80, 0x80]]

/-- The 80 bytes of the default font in address order (R33). -/
def defaultFont : Font := ⟨defaultGlyphs.flatten.toArray, by decide⟩

/-- The quirk settings of `State.reset`: all off (DESIGN CHOICE, assumption 3: R234 names no default; the start states of
95_test_vectors.md have all off). -/
def defaultQuirks : Quirks := ⟨false, false, false, false⟩

/-- The configuration of `State.reset`. -/
def defaultConfig : CoreConfig := ⟨defaultQuirks, defaultFont⟩

/-- What a byte of memory holds after construction and, outside the program, after `load` (R37): the font at
0x000..0x04F and 0x00 elsewhere (D6, assumption 8). It is what an unlisted address of the memory list reads as. -/
def resetByte (font : Font) (a : Nat) : Byte := if h : a < 80 then font[a] else 0

end Sys2Proof.Machine
end

