-- ==== Sys2Proof/Machine/State.lean ====
section
/-! DEFINITION. The state of the core (spec 10_state.md), its reset value (R37) and the reasons a step can stop
(R270). -/

namespace Sys2Proof.Machine

/-- Memory as a list of (address, byte) pairs, addresses strictly rising, no entry equal to the reset contents of its
address (`Memory.wf` in Machine/Ops.lean). An unlisted address reads as `resetByte`. -/
abbrev Memory := List Host.Cell

/-- `FB`: 32 rows (y, 0 at the top) of 64 one-bit pixels (x, 0 at the left); `true` is on (R31). -/
abbrev FrameBuffer := Vector (Vector Bool 64) 32

/-- `MODE`: running, or the key-wait latch with the register it names (R30). -/
inductive Mode where
  | running
  | awaitingKey (r : Reg)
deriving DecidableEq, Repr

/-- The complete state (R20), with the immutable configuration (R32, R33) beside it. `draws` is the model's own. -/
structure State where
  /-- `MEM` (R21). -/
  mem : Memory
  /-- `V[0..15]` (R22). -/
  v : Vector Byte 16
  /-- `I` (R24). -/
  i : Word
  /-- `PC` (R25). -/
  pc : Word
  /-- `STACK[0..15]` (R26). -/
  stack : Vector Word 16
  /-- `SP`, the count of live entries, 0 to 16 (R26). -/
  sp : Fin 17
  /-- `DT` (R27). -/
  dt : Byte
  /-- `ST` (R28). -/
  st : Byte
  /-- `KEYS[0..15]` (R29). -/
  keys : Vector Bool 16
  /-- `MODE` (R30). -/
  mode : Mode
  /-- `FB` (R31). -/
  fb : FrameBuffer
  /-- `Q` and `FONT`, fixed at construction (R32, R33). -/
  cfg : CoreConfig
  /-- The model's own counter of random draws (assumption 4); it only selects the next free value `Config.rnd draws`. -/
  draws : Nat
deriving DecidableEq, Repr

/-- The error kinds of R270 with their payloads, a closed enumeration (R276). Each ends the operation that raises it. -/
inductive Fault where
  /-- Raised by `load` for more than 3584 bytes (R271). The core's own error: safe. -/
  | programTooLarge
  /-- Raised by `CALL` with 16 live entries (R272). The core's own error: safe. -/
  | stackOverflow
  /-- Raised by `RET` with an empty stack (R273). The core's own error: safe. -/
  | stackUnderflow
  /-- Raised by `step` when the fetched word `w` is illegal (R274). The core's own error; safe (strict matching stops
  where a lenient core might go on, assumption 11). -/
  | unknownOpcode (w : Word)
  /-- Raised by `step` when the fetch, or `DRW`, `LD B`, `LD [I]`, `LD VX, [I]`, would touch an address above 0xFFF;
  `addr` is the lowest such address (R275, D2). Safe: the model stops where the core might wrap (assumption 5). -/
  | memoryOutOfBounds (addr : Nat)
deriving DecidableEq, Repr

/-- Why a step has no meaning. No instruction of this model raises one. -/
inductive Refusal where
  /-- The instruction of this mnemonic has no meaning yet; raised by a refused arm of `exec` only. Safe. -/
  | notModelled (mnemonic : String)
deriving DecidableEq, Repr

/-- What an operation answers. -/
abbrev Result := Host.Outcome State Fault Refusal

/-- Construction, `new(Q)` with the font parameter: every piece of state at the value of R37 (R300). Memory lists
nothing, so it reads as `resetByte`. -/
def State.new (cfg : CoreConfig) : State where
  mem := []
  v := Vector.replicate 16 0
  i := 0
  pc := 0x200
  stack := Vector.replicate 16 0
  sp := 0
  dt := 0
  st := 0
  keys := Vector.replicate 16 false
  mode := .running
  fb := Vector.replicate 32 (Vector.replicate 64 false)
  cfg := cfg
  draws := 0

/-- The machine right after construction with the default configuration (R37; assumptions 2, 3 and 4). -/
def State.reset : State := State.new defaultConfig

end Sys2Proof.Machine
end

