-- ==== Sys2Proof/Machine/Ops.lean ====
section
/-! DEFINITION. The operations the meanings share: registers, memory, call stack, framebuffer, errors and the fetch.
Every read and write of the state goes through them. -/

namespace Sys2Proof.Machine

/-! ## Memory as a list (R21, R62, R67)

`bg a` is what the address `a` reads as when it is not listed. -/

/-- The byte at `a`. -/
def Memory.read (bg : Nat → Byte) : Memory → Nat → Byte
  | [], a => bg a
  | (k, b) :: m, a => if a = k then b else Memory.read bg m a

/-- The memory in which `a` holds `b` and every other address what it held; it keeps the canonical form. -/
def Memory.write (bg : Nat → Byte) : Memory → Nat → Byte → Memory
  | [], a, b => if b = bg a then [] else [(a, b)]
  | (k, c) :: m, a, b =>
    if a < k then (if b = bg a then (k, c) :: m else (a, b) :: (k, c) :: m)
    else if a = k then (if b = bg a then m else (a, b) :: m)
    else (k, c) :: Memory.write bg m a b

/-- Write a sequence of bytes at ascending addresses, the first at `a` (R64). -/
def Memory.writeBytes (bg : Nat → Byte) : Memory → Nat → List Byte → Memory
  | m, _, [] => m
  | m, a, b :: bs => Memory.writeBytes bg (Memory.write bg m a b) (a + 1) bs

/-- The canonical memory that holds `bytes` from `a` on and the reset contents elsewhere. -/
def Memory.image (bg : Nat → Byte) : Nat → List Byte → Memory
  | _, [] => []
  | a, b :: bs => if b = bg a then Memory.image bg (a + 1) bs else (a, b) :: Memory.image bg (a + 1) bs

/-- The canonical form: addresses strictly rising and inside memory, no entry equal to what its address reads as when
it is not listed. -/
abbrev Memory.wf (bg : Nat → Byte) (m : Memory) : Prop :=
  m.Pairwise (fun c d => c.1 < d.1) ∧ ∀ c ∈ m, c.1 < memSize ∧ c.2 ≠ bg c.1

/-! ## Registers and memory of a state -/

/-- `V[r]` (R8). -/
def State.getV (s : State) (r : Reg) : Byte := s.v.get r
/-- `V[r] <- b` (R8). None is hard-wired (R22). -/
def State.setV (s : State) (r : Reg) (b : Byte) : State := { s with v := s.v.set r.val b r.isLt }
/-- `I <- a`. -/
def State.setI (s : State) (a : Word) : State := { s with i := a }
/-- `PC <- a`; the target is not checked (R120). -/
def State.setPc (s : State) (a : Word) : State := { s with pc := a }
/-- `DT <- b`. -/
def State.setDt (s : State) (b : Byte) : State := { s with dt := b }
/-- `ST <- b`. -/
def State.setSt (s : State) (b : Byte) : State := { s with st := b }
/-- `MODE <- m`. -/
def State.setMode (s : State) (m : Mode) : State := { s with mode := m }
/-- The new framebuffer. -/
def State.setFb (s : State) (fb : FrameBuffer) : State := { s with fb := fb }
/-- `KEYS[k]`. -/
def State.getKey (s : State) (k : Key) : Bool := s.keys.get k
/-- `KEYS[k] <- p`. -/
def State.setKey (s : State) (k : Key) (p : Bool) : State := { s with keys := s.keys.set k.val p k.isLt }

/-- What an unlisted address reads as in this state. -/
def State.background (s : State) : Nat → Byte := resetByte s.cfg.font
/-- The byte at `a` (R62, in range). -/
def State.readByte (s : State) (a : Nat) : Byte := s.mem.read s.background a
/-- `MEM[a] <- b` (R62, in range). -/
def State.writeByte (s : State) (a : Nat) (b : Byte) : State := { s with mem := s.mem.write s.background a b }
/-- The bytes from `a` on (R64). -/
def State.readBytes (s : State) (a n : Nat) : List Byte := (List.range n).map (fun k => s.readByte (a + k))
/-- Store bytes at ascending addresses from `a` on (R64). -/
def State.writeBytes (s : State) (a : Nat) (bs : List Byte) : State :=
  { s with mem := s.mem.writeBytes s.background a bs }

/-- The bytes `V[0]` to `V[x]` (R174). -/
def State.regBytes (s : State) (x : Reg) : List Byte := s.v.toList.take (x.val + 1)
/-- `V[k] <- MEM[a + k]` for k = 0 to x (R175); the other registers keep their values. -/
def State.loadV (s : State) (x : Reg) (a : Nat) : State :=
  { s with v := Vector.ofFn fun k : Fin 16 => if k ≤ x then s.readByte (a + k.val) else s.getV k }

/-- The free random byte of this execution (R249). -/
def State.draw (s : State) : Byte := Config.rnd s.draws
/-- The next draw is a fresh one. -/
def State.bumpDraws (s : State) : State := { s with draws := s.draws + 1 }

/-! ## The call stack (R26) -/

/-- Push: needs `SP < 16`. -/
def State.push (s : State) (a : Word) : Option State :=
  if h : s.sp.val < 16 then
    some { s with stack := s.stack.set s.sp.val a h, sp := ⟨s.sp.val + 1, Nat.succ_lt_succ h⟩ }
  else none

/-- Pop: needs `SP > 0`. The popped slot keeps its bits (R121). -/
def State.pop (s : State) : Option (Word × State) :=
  if h : s.sp.val = 0 then none
  else some (s.stack[s.sp.val - 1]'(by omega), { s with sp := ⟨s.sp.val - 1, by omega⟩ })

/-! ## The framebuffer (R31) -/

/-- `FB[y][x]`. -/
def FrameBuffer.pixel (fb : FrameBuffer) (y : Fin 32) (x : Fin 64) : Bool := (fb.get y).get x
/-- `FB[y][x] <- FB[y][x] xor 1`. -/
def FrameBuffer.toggle (fb : FrameBuffer) (y : Fin 32) (x : Fin 64) : FrameBuffer :=
  fb.set y.val ((fb.get y).set x.val (!fb.pixel y x) x.isLt) y.isLt
/-- All pixels off. -/
def FrameBuffer.clear : FrameBuffer := Vector.replicate 32 (Vector.replicate 64 false)
/-- `FB[y][x]` of a state. -/
def State.pixel (s : State) (y : Fin 32) (x : Fin 64) : Bool := FrameBuffer.pixel s.fb y x

/-! ## Errors (R270, R279) -/

/-- `raise`: the operation ends at once with the error; nothing is saved, no mode changes, control goes nowhere
(R279). The state it leaves is `State.afterStepError` (Machine/Operations.lean). -/
def raise (e : Fault) : Result := .fault e

/-- The range of `n` bytes from `base` on lies inside memory; an empty range always does (R63, R176). -/
def inRange (base n : Nat) : Bool := n == 0 || base + n ≤ memSize

/-- The check that precedes every effect of an access to `n` bytes from `base` on: the whole range, or
`MemoryOutOfBounds` with the lowest address outside memory (R63, R176, R275). -/
def guardRange (base n : Nat) (ok : Result) : Result :=
  if inRange base n then ok else raise (.memoryOutOfBounds (max base memSize))

/-! ## Fetch (R242) -/

/-- The big-endian word at `[a, a+1]` (R64). -/
def State.wordAt (s : State) (a : Nat) : Word := wordOfBytes (s.readByte a) (s.readByte (a + 1))
/-- The fetch advance, `PC <- PC + 2` (R242). -/
def State.advancePc (s : State) : State := s.setPc (s.pc + 2)
/-- The conditional skip: a further `PC <- PC + 2` (R120). -/
def State.skipIf (s : State) (c : Bool) : State := if c then s.advancePc else s

/-- Where the next step fetches, brought into memory: an address above 0xFFE holds no whole word and is replaced by the
entry point. -/
def fetchPoint (pc : Word) : Word := if inRange pc.toNat 2 then pc else BitVec.ofNat 16 progBase

/-- The state whose next step fetches the word `w`: running, and `w` stored high byte first where the step fetches. -/
def State.placeWord (s : State) (w : Word) : State :=
  ((s.setMode .running).setPc (fetchPoint s.pc)).writeBytes (fetchPoint s.pc).toNat (bytesOfWord w)

end Sys2Proof.Machine
end

