-- ==== Sys2Proof/Machine/Flags.lean ====
section
/-! DEFINITION. The flag computations. A flag write stores the byte 0x00 or 0x01 into `VF` (R23), after the result has been
written (R152, D10, assumption 7). -/

namespace Sys2Proof.Machine

/-- The byte a flag write stores (R23). -/
def flagByte (c : Bool) : Byte := if c then 0x01 else 0x00
/-- `VF <- c`. -/
def State.setFlag (s : State) (c : Bool) : State := s.setV vf (flagByte c)

/-- Carry out of bit 7 (R146, R153). -/
def carry (a b : Byte) : Bool := a.toNat + b.toNat > 255
/-- Not-borrow of `a - b`: 1 when `a >= b`, equality included (R147, R149, R153). -/
def notBorrow (a b : Byte) : Bool := a.toNat ≥ b.toNat
/-- The bit a right shift moves out (R148). -/
def shiftedOutRight (a : Byte) : Bool := a.getLsbD 0
/-- The bit a left shift moves out (R150). -/
def shiftedOutLeft (a : Byte) : Bool := a.getLsbD 7

/-- Write a result and then the flag, in this order (R152). -/
def State.setResultFlag (s : State) (x : Reg) (r : Byte) (c : Bool) : State := (s.setV x r).setFlag c

end Sys2Proof.Machine
end

