-- ==== Sys2Proof/Machine/Operands.lean ====
section
/-! DEFINITION. Operand forms: immediates widened (R93), the fields read inside NNN (R128), the quirk multiplexers
(R230, R231), ordinals taken from a register (R172, R216), addresses through `I` (R176). -/

namespace Sys2Proof.Machine

/-- `zext_16(NNN)` (R93). -/
def zextAddr (nnn : Addr12) : Word := nnn.setWidth 16
/-- `zext_16(b)` (R93). -/
def zextByte (b : Byte) : Word := b.setWidth 16
/-- `X` inside NNN: its high nibble (R91, R128). -/
def nnnX (nnn : Addr12) : Reg := (nnn.extractLsb' 8 4).toFin
/-- `NN` inside NNN: its low byte (R91, R128). -/
def nnnNN (nnn : Addr12) : Byte := nnn.extractLsb' 0 8

/-- The source of `SHR` and `SHL` under `Q.shift_source` (R148, R150). -/
def shiftSource (s : State) (x y : Reg) : Byte := if s.cfg.q.shiftSource then s.getV x else s.getV y

/-- The target of `BNNN` under `Q.jump_offset` (R128, C5). The sums cannot overflow 16 bits. -/
def jumpTarget (s : State) (nnn : Addr12) : Word :=
  if s.cfg.q.jumpOffset then zextByte (s.getV (nnnX nnn)) + zextByte (nnnNN nnn)
  else zextAddr nnn + zextByte (s.getV 0)

/-- The post-increment of `FX55`, `FX65` under `Q.memory_increment` (R174, R175). -/
def postIncrement (s : State) (x : Reg) : State :=
  if s.cfg.q.memoryIncrement then s.setI (s.i + BitVec.ofNat 16 (x.val + 1)) else s

/-- The low nibble `b[3:0]` as a number. -/
def lowNibble (b : Byte) : Nat := b.toNat % 16
/-- The key a register selects: its low nibble (R216, D12, assumption 12). -/
def keyOrdinal (b : Byte) : Key := ⟨lowNibble b, Nat.mod_lt _ (by decide)⟩
/-- The address of the glyph a register selects: 5 times its low nibble (R172). -/
def glyphAddress (b : Byte) : Word := BitVec.ofNat 16 (glyphBytes * lowNibble b)

/-- The three decimal digits, hundreds first (R173, D16, assumption 13). -/
def bcdDigits (b : Byte) : List Byte :=
  [BitVec.ofNat 8 (b.toNat / 100), BitVec.ofNat 8 (b.toNat / 10 % 10), BitVec.ofNat 8 (b.toNat % 10)]

/-- The base address of every data access, as a number (R176: no wrap inside the address computation). -/
def State.base (s : State) : Nat := s.i.toNat

end Sys2Proof.Machine
end

