-- ==== Sys2Proof/Machine/Alu.lean ====
section
/-! DEFINITION. Register load, arithmetic, logic, shift and random (spec 41_alu.md). Operands are read first, then the
result is written, then the flag (R152). -/

namespace Sys2Proof.Machine

/-- `LD VX, NN` (R140). -/
def execLdImm (x : Reg) (nn : Byte) (s : State) : Result := .next (s.setV x nn)
/-- `ADD VX, NN` (R141): no flag. -/
def execAddImm (x : Reg) (nn : Byte) (s : State) : Result := .next (s.setV x (s.getV x + nn))
/-- `LD VX, VY` (R142). -/
def execLdReg (x y : Reg) (s : State) : Result := .next (s.setV x (s.getV y))
/-- `OR VX, VY` (R143): `VF` is left alone (D9, assumption 7). -/
def execOrReg (x y : Reg) (s : State) : Result := .next (s.setV x (s.getV x ||| s.getV y))
/-- `AND VX, VY` (R144). -/
def execAndReg (x y : Reg) (s : State) : Result := .next (s.setV x (s.getV x &&& s.getV y))
/-- `XOR VX, VY` (R145). -/
def execXorReg (x y : Reg) (s : State) : Result := .next (s.setV x (s.getV x ^^^ s.getV y))

/-- `ADD VX, VY` (R146): `VF` is the carry. -/
def execAddReg (x y : Reg) (s : State) : Result :=
  .next (s.setResultFlag x (s.getV x + s.getV y) (carry (s.getV x) (s.getV y)))
/-- `SUB VX, VY` (R147): `VF` is the not-borrow. -/
def execSubReg (x y : Reg) (s : State) : Result :=
  .next (s.setResultFlag x (s.getV x - s.getV y) (notBorrow (s.getV x) (s.getV y)))
/-- `SUBN VX, VY` (R149): the reversed subtraction. -/
def execSubn (x y : Reg) (s : State) : Result :=
  .next (s.setResultFlag x (s.getV y - s.getV x) (notBorrow (s.getV y) (s.getV x)))
/-- `SHR VX, VY` (R148): logical. -/
def execShr (x y : Reg) (s : State) : Result :=
  .next (s.setResultFlag x (shiftSource s x y >>> 1) (shiftedOutRight (shiftSource s x y)))
/-- `SHL VX, VY` (R150). -/
def execShl (x y : Reg) (s : State) : Result :=
  .next (s.setResultFlag x (shiftSource s x y <<< 1) (shiftedOutLeft (shiftSource s x y)))

/-- `RND VX, NN` (R151): a fresh free byte AND `NN`. -/
def execRnd (x : Reg) (nn : Byte) (s : State) : Result := .next ((s.setV x (s.draw &&& nn)).bumpDraws)

end Sys2Proof.Machine
end

