-- ==== Sys2Proof/Machine/Control.lean ====
section
/-! DEFINITION. Control transfer (spec 40_control_flow.md). `PC` is already the address of the next instruction (R120). -/

namespace Sys2Proof.Machine

/-- `RET` (R121). -/
def execRet (s : State) : Result :=
  match s.pop with
  | none => raise .stackUnderflow
  | some (a, t) => .next (t.setPc a)

/-- `JP NNN` (R122). -/
def execJp (nnn : Addr12) (s : State) : Result := .next (s.setPc (zextAddr nnn))

/-- `CALL NNN` (R123): pushes the advanced `PC`. -/
def execCall (nnn : Addr12) (s : State) : Result :=
  match s.push s.pc with
  | none => raise .stackOverflow
  | some t => .next (t.setPc (zextAddr nnn))

/-- `SE VX, NN` (R124). -/
def execSeImm (x : Reg) (nn : Byte) (s : State) : Result := .next (s.skipIf (s.getV x == nn))
/-- `SNE VX, NN` (R125). -/
def execSneImm (x : Reg) (nn : Byte) (s : State) : Result := .next (s.skipIf (s.getV x != nn))
/-- `SE VX, VY` (R126). -/
def execSeReg (x y : Reg) (s : State) : Result := .next (s.skipIf (s.getV x == s.getV y))
/-- `SNE VX, VY` (R127). -/
def execSneReg (x y : Reg) (s : State) : Result := .next (s.skipIf (s.getV x != s.getV y))

/-- `JP V0, NNN` (R128). -/
def execJpV0 (nnn : Addr12) (s : State) : Result := .next (s.setPc (jumpTarget s nnn))

end Sys2Proof.Machine
end

