-- ==== Sys2Proof/Machine/Display.lean ====
section
/-! DEFINITION. The framebuffer and the XOR sprite blitter (spec 43_display.md). -/

namespace Sys2Proof.Machine

/-- `CLS` (R190): `VF` is not changed. -/
def execCls (s : State) : Result := .next (s.setFb FrameBuffer.clear)

/-- Column `col` of a sprite row: bit 7 is the leftmost pixel (R192, D13, assumption 13). -/
def spriteBit (b : Byte) (col : Nat) : Bool := b.getLsbD (7 - col)

/-- The pixel (row, column) a sprite bit lands on. Off: every coordinate wraps. On: the origin wraps and what passes the
right or bottom edge is dropped (R191, D14, assumption 13; C1 for the row modulus). -/
def spriteTarget (clip : Bool) (x0 y0 : Byte) (row col : Nat) : Option (Fin 32 × Fin 64) :=
  if clip then
    if h : y0.toNat % 32 + row < 32 ∧ x0.toNat % 64 + col < 64 then
      some (⟨y0.toNat % 32 + row, h.1⟩, ⟨x0.toNat % 64 + col, h.2⟩)
    else none
  else
    some (⟨(y0.toNat + row) % 32, Nat.mod_lt _ (by decide)⟩, ⟨(x0.toNat + col) % 64, Nat.mod_lt _ (by decide)⟩)

/-- One set sprite bit: toggle its pixel and note a collision when the pixel was on (R191). -/
def blitBit (clip : Bool) (x0 y0 : Byte) (row col : Nat) (acc : FrameBuffer × Bool) : FrameBuffer × Bool :=
  match spriteTarget clip x0 y0 row col with
  | none => acc
  | some (y, x) => (FrameBuffer.toggle acc.1 y x, acc.2 || FrameBuffer.pixel acc.1 y x)

/-- One row of eight columns, left to right. -/
def blitRow (clip : Bool) (x0 y0 : Byte) (row : Nat) (b : Byte) (acc : FrameBuffer × Bool) : FrameBuffer × Bool :=
  (List.range 8).foldl (fun acc col => if spriteBit b col then blitBit clip x0 y0 row col acc else acc) acc

/-- The rows of a sprite from row `row` on, top to bottom. -/
def blitRows (clip : Bool) (x0 y0 : Byte) : Nat → List Byte → FrameBuffer × Bool → FrameBuffer × Bool
  | _, [], acc => acc
  | row, b :: bs, acc => blitRows clip x0 y0 (row + 1) bs (blitRow clip x0 y0 row b acc)

/-- The framebuffer and the collision after drawing the `n` sprite bytes at `I` with origin (V[x], V[y]). -/
def drawSprite (s : State) (x y : Reg) (n : Nat) : FrameBuffer × Bool :=
  blitRows s.cfg.q.spriteClip (s.getV x) (s.getV y) 0 (s.readBytes s.base n) (s.fb, false)

/-- `DRW VX, VY, N` (R191): the whole range is checked first (D24), `VF` is the collision, written last. -/
def execDrw (x y : Reg) (n : Nibble) (s : State) : Result :=
  guardRange s.base n.toNat
    (.next ((s.setFb (drawSprite s x y n.toNat).1).setFlag (drawSprite s x y n.toNat).2))

end Sys2Proof.Machine
end

