-- ==== Sys2Proof/Machine/Index.lean ====
section
/-! DEFINITION. The index register and memory instructions (spec 42_index_memory.md). Every access checks its whole range
before any effect (R176). -/

namespace Sys2Proof.Machine

/-- `LD I, NNN` (R170). -/
def execLdI (nnn : Addr12) (s : State) : Result := .next (s.setI (zextAddr nnn))
/-- `ADD I, VX` (R171): 16-bit wrap, no flag. -/
def execAddI (x : Reg) (s : State) : Result := .next (s.setI (s.i + zextByte (s.getV x)))
/-- `LD F, VX` (R172). -/
def execLdF (x : Reg) (s : State) : Result := .next (s.setI (glyphAddress (s.getV x)))
/-- `LD B, VX` (R173). -/
def execLdB (x : Reg) (s : State) : Result :=
  guardRange s.base 3 (.next (s.writeBytes s.base (bcdDigits (s.getV x))))
/-- `LD [I], VX` (R174). -/
def execStoreRegs (x : Reg) (s : State) : Result :=
  guardRange s.base (x.val + 1) (.next (postIncrement (s.writeBytes s.base (s.regBytes x)) x))
/-- `LD VX, [I]` (R175). -/
def execLoadRegs (x : Reg) (s : State) : Result :=
  guardRange s.base (x.val + 1) (.next (postIncrement (s.loadV x s.base) x))

end Sys2Proof.Machine
end

