-- ==== Sys2Proof/Machine/TimersKeypad.lean ====
section
/-! DEFINITION. The timer and keypad instructions (spec 44_timers_keypad.md). -/

namespace Sys2Proof.Machine

/-- `LD VX, DT` (R210). -/
def execLdVxDt (x : Reg) (s : State) : Result := .next (s.setV x s.dt)
/-- `LD DT, VX` (R211). -/
def execLdDtVx (x : Reg) (s : State) : Result := .next (s.setDt (s.getV x))
/-- `LD ST, VX` (R212). -/
def execLdStVx (x : Reg) (s : State) : Result := .next (s.setSt (s.getV x))
/-- `SKP VX` (R213). -/
def execSkp (x : Reg) (s : State) : Result := .next (s.skipIf (s.getKey (keyOrdinal (s.getV x))))
/-- `SKNP VX` (R214). -/
def execSknp (x : Reg) (s : State) : Result := .next (s.skipIf (!s.getKey (keyOrdinal (s.getV x))))
/-- `LD VX, K` (R215): sets the key-wait latch and nothing else; `KEYS` is not examined (D27, assumption 12). -/
def execLdVxK (x : Reg) (s : State) : Result := .next (s.setMode (.awaitingKey x))

end Sys2Proof.Machine
end

