-- ==== Sys2Proof/Machine/Cycle.lean ====
section
/-! DEFINITION. The fetch-decode-execute cycle (R242 to R244), in the fixed order of R278. `Machine.step` calls it. -/

namespace Sys2Proof.Machine

/-- Decode and execute a fetched word; `s.pc` is already advanced (R242). -/
def runWord (w : Word) (s : State) : Result :=
  match decode w with
  | none => raise (.unknownOpcode w)
  | some i => exec i s

/-- One `step()`: nothing while waiting for a key (R244); else the range check of the fetch, the big-endian fetch, the
advance of `PC`, decode and dispatch (R242). -/
def cycle (s : State) : Result :=
  match s.mode with
  | .awaitingKey _ => .next s
  | .running => guardRange s.pc.toNat 2 (runWord (s.wordAt s.pc.toNat) s.advancePc)

end Sys2Proof.Machine
end

