-- ==== Sys2Proof/Machine/Step.lean ====
section
/-! DEFINITION. One step of the CPU sequencer, and the host's way to place the next instruction. -/

namespace Sys2Proof.Machine

/-- `step()` (R242). An error is a fault: the spec's default `FAULT_POLICY` (R280, assumption 6). -/
def step (s : State) : Host.Outcome State Fault Refusal := cycle s

/-- `s` with the instruction whose bits are `w` stored where `step` fetches next (assumption 9). -/
def State.withFetchWord (s : State) (nbits w : Nat) : State := s.placeWord (BitVec.ofNat 16 (w % 2 ^ nbits))

end Sys2Proof.Machine
end

