-- ==== Sys2Proof/Machine/Operations.lean ====
section
/-! DEFINITION. The interface operations beside `step` (spec 50_operations.md, 70_reset_and_hazards.md), the outputs, what an
error leaves (R279) and the driver's fault policy (R280). -/

namespace Sys2Proof.Machine

/-! ## `load` (R301, R302) -/

/-- The state a successful `load` leaves: everything as after construction but `Q` and `FONT` kept, and the program
written from 0x200 on. The model's draw counter goes on, so that draws stay fresh (assumption 4). -/
def State.loaded (s : State) (bytes : List Byte) : State :=
  { State.new s.cfg with mem := Memory.image s.background progBase bytes, draws := s.draws }

/-- `load(bytes)`: the length is tested before any state is touched (R301, R302). -/
def load (bytes : List Byte) (s : State) : Result :=
  if programFits bytes then .next (s.loaded bytes) else raise .programTooLarge

/-! ## `tick_timers` (R245) -/

/-- Decrement by 1 when nonzero (R27, R28). -/
def countDown (b : Byte) : Byte := if b = 0 then 0 else b - 1
/-- Both timers, each on its own test (R245). -/
def tickTimers (s : State) : State := (s.setDt (countDown s.dt)).setSt (countDown s.st)

/-! ## `set_key_state` (R246) -/

/-- Deliver a press to a waiting program: `V[r]` receives the ordinal and the latch clears (R246). -/
def deliverKey (k : Key) (s : State) : State :=
  match s.mode with
  | .running => s
  | .awaitingKey r => (s.setV r (BitVec.ofNat 8 k.val)).setMode .running

/-- `set_key_state(key, pressed)`: the level of the argument counts, not an edge (R246, C4). -/
def setKeyState (k : Key) (pressed : Bool) (s : State) : State :=
  if pressed then deliverKey k (s.setKey k true) else s.setKey k false

/-! ## Outputs (R243, R247, R248) -/

/-- What a completed `step` reports. -/
inductive StepReport where
  | running
  | awaitingKey
deriving DecidableEq, Repr

/-- The result of a completed `step`, a pure function of the state after it (R243). -/
def State.report (s : State) : StepReport :=
  match s.mode with
  | .running => .running
  | .awaitingKey _ => .awaitingKey

/-- The framebuffer output (R247). -/
def State.framebuffer (s : State) : FrameBuffer := s.fb
/-- `sound_active = (ST != 0)` (R248). -/
def State.soundActive (s : State) : Bool := s.st != 0

/-! ## The operations as one labelled transition (R240, R241) -/

/-- The four operations with their arguments (R240). -/
inductive Operation where
  | load (bytes : List Byte)
  | step
  | tickTimers
  | setKeyState (key : Key) (pressed : Bool)
deriving DecidableEq, Repr

/-- One operation, atomic (R241). An error is a fault. -/
def perform (op : Operation) (s : State) : Result :=
  match op with
  | .load bytes => load bytes s
  | .step => step s
  | .tickTimers => .next (tickTimers s)
  | .setKeyState k pressed => .next (setKeyState k pressed s)

/-! ## Errors: the state left and the diagnostics (R253, R279) -/

/-- The state an error of `step` leaves: `PC` past the instruction, nothing else changed; a failed fetch changes nothing
(R279, D3, assumption 7). -/
def State.afterStepError (s : State) : State := if inRange s.pc.toNat 2 then s.advancePc else s

/-- The state an error of an operation leaves: a failed `load` changes nothing (R302). -/
def stateAfterError (op : Operation) (s : State) : State :=
  match op with
  | .step => s.afterStepError
  | .load _ => s
  | .tickTimers => s
  | .setKeyState _ _ => s

/-- What the caller can read with an error: the offending word and its address (R253). -/
structure Diagnostics where
  word : Option Word
  address : Option Word
deriving DecidableEq, Repr

/-- The diagnostics of an error of an operation performed at `s` (the table of R279): the fetched word and `PC0`, for a
failed fetch no word and `PC`, for `load` neither. -/
def diagnostics (op : Operation) (s : State) : Diagnostics :=
  match op with
  | .step => ⟨if inRange s.pc.toNat 2 then some (s.wordAt s.pc.toNat) else none, some s.pc⟩
  | .load _ => ⟨none, none⟩
  | .tickTimers => ⟨none, none⟩
  | .setKeyState _ _ => ⟨none, none⟩

/-- One operation under the driver's fault policy: `halt` lets an error end the run, `skip` goes on from the state the
error left (R280). -/
def performUnder (policy : FaultPolicy) (op : Operation) (s : State) : Result :=
  match perform op s, policy with
  | .fault _, .skip => .next (stateAfterError op s)
  | .fault e, .halt => .fault e
  | .next t, _ => .next t
  | .refused r, _ => .refused r

/-- A schedule of operations, in order, under a fault policy (R241, R280). -/
def runSchedule (policy : FaultPolicy) : List Operation → State → Result
  | [], s => .next s
  | op :: ops, s =>
    match performUnder policy op s with
    | .next t => runSchedule policy ops t
    | .fault e => .fault e
    | .refused r => .refused r

end Sys2Proof.Machine
end

