-- ==== Sys2Proof/Safety.lean ====
section
/-! DEFINITION. The terms in which claims speak of runs and states: what a transition leaves unchanged, the invariant of
the core (R40), the reachable states, and the vocabulary of the whole-machine rules (R36, R191, R231). -/

namespace Sys2Proof.Machine

/-! ## Frames -/

/-- The pieces of state, one name each (R20); every byte of memory and every pixel is a piece of its own. -/
inductive Component where
  | v (r : Reg)
  | i
  | pc
  | stackSlot (j : Fin 16)
  | sp
  | dt
  | st
  | key (k : Key)
  | mode
  | pixel (y : Fin 32) (x : Fin 64)
  | byte (a : Nat)
  | config
  | draws
deriving DecidableEq, Repr

/-- The piece `c` holds the same in both states. A byte of memory is compared through the read of one byte. -/
def Component.Same (c : Component) (s t : State) : Prop :=
  match c with
  | .v r => t.getV r = s.getV r
  | .i => t.i = s.i
  | .pc => t.pc = s.pc
  | .stackSlot j => t.stack.get j = s.stack.get j
  | .sp => t.sp = s.sp
  | .dt => t.dt = s.dt
  | .st => t.st = s.st
  | .key k => t.getKey k = s.getKey k
  | .mode => t.mode = s.mode
  | .pixel y x => t.pixel y x = s.pixel y x
  | .byte a => t.readByte a = s.readByte a
  | .config => t.cfg = s.cfg
  | .draws => t.draws = s.draws

/-- Every piece of state outside `allowed` is unchanged. -/
def OnlyChanges (allowed : Component → Prop) (s t : State) : Prop := ∀ c, ¬allowed c → c.Same s t

/-! ## Invariant and reachable states -/

/-- The invariant of the core. Memory has its canonical form; `PC <= 0x10FE` (R25, R40); every live return address is at
most 0x1000, which is what keeps `PC` bounded through `RET`. The other bounds of R40 are in the types. -/
abbrev State.Inv (s : State) : Prop :=
  s.mem.wf s.background ∧ s.pc.toNat ≤ 0x10FE ∧
    ∀ j : Fin 16, j.val < s.sp.val → (s.stack.get j).toNat ≤ 0x1000

/-- The states of a core constructed with `cfg` that some schedule of operations reaches, the driver going on after errors
(R241, R280; the states a halting driver reaches are among them). -/
inductive Reachable (cfg : CoreConfig) : State → Prop where
  | new : Reachable cfg (State.new cfg)
  | perform {s t : State} (op : Operation) (h : Reachable cfg s) (hop : performUnder .skip op s = .next t) :
      Reachable cfg t

/-- A safe run: the schedule ends in no error (R280: an error is never a successful end). -/
def ErrorFree (ops : List Operation) (s : State) : Prop := ∃ t, runSchedule .halt ops s = .next t

/-! ## Two runs side by side -/

/-- The same outcome with the next state changed by `f`. -/
def mapNext (f : State → State) : Result → Result
  | .next t => .next (f t)
  | .fault e => .fault e
  | .refused r => .refused r

/-- The same state under other quirk settings. -/
def State.withQuirks (s : State) (q : Quirks) : State := { s with cfg := { s.cfg with q := q } }

/-- `p` and `q` agree on the quirk that `i` reads, if it reads one (R231). -/
def quirksAgreeFor (i : Instr) (p q : Quirks) : Prop :=
  match i with
  | .shr _ _ | .shl _ _ => p.shiftSource = q.shiftSource
  | .jpV0 _ => p.jumpOffset = q.jumpOffset
  | .storeRegs _ | .loadRegs _ => p.memoryIncrement = q.memoryIncrement
  | .drw _ _ _ => p.spriteClip = q.spriteClip
  | .cls | .ret | .jp _ | .call _ | .seImm _ _ | .sneImm _ _ | .seReg _ _ | .ldImm _ _ | .addImm _ _ | .ldReg _ _
  | .orReg _ _ | .andReg _ _ | .xorReg _ _ | .addReg _ _ | .subReg _ _ | .subn _ _ | .sneReg _ _ | .ldI _ | .rnd _ _
  | .skp _ | .sknp _ | .ldVxDt _ | .ldVxK _ | .ldDtVx _ | .ldStVx _ | .addI _ | .ldF _ | .ldB _ => True

/-! ## Who writes what (R36) -/

/-- The general registers an instruction may write: its destination, and `VF` for the flag-writing ones (R23, R36). -/
def writesReg (i : Instr) (r : Reg) : Prop :=
  match i with
  | .ldImm x _ | .addImm x _ | .rnd x _ | .ldReg x _ | .orReg x _ | .andReg x _ | .xorReg x _ | .ldVxDt x => r = x
  | .addReg x _ | .subReg x _ | .shr x _ | .subn x _ | .shl x _ => r = x ∨ r = vf
  | .drw _ _ _ => r = vf
  | .loadRegs x => r ≤ x
  | .cls | .ret | .jp _ | .call _ | .seImm _ _ | .sneImm _ _ | .seReg _ _ | .sneReg _ _ | .ldI _ | .jpV0 _ | .skp _
  | .sknp _ | .ldVxK _ | .ldDtVx _ | .ldStVx _ | .addI _ | .ldF _ | .ldB _ | .storeRegs _ => False

/-- The rows of R36 for the instructions: the piece `c` may be written by `i` executing at `s`. The fetch advance of `PC`
is not part of it. -/
def Component.writtenBy (c : Component) (s : State) (i : Instr) : Prop :=
  match c with
  | .byte a =>
    (∃ x, i = .ldB x ∧ s.base ≤ a ∧ a < s.base + 3) ∨ (∃ x, i = .storeRegs x ∧ s.base ≤ a ∧ a ≤ s.base + x.val)
  | .v r => writesReg i r
  | .i =>
    (∃ nnn, i = .ldI nnn) ∨ (∃ x, i = .addI x ∨ i = .ldF x) ∨
      (s.cfg.q.memoryIncrement = true ∧ ∃ x, i = .storeRegs x ∨ i = .loadRegs x)
  | .pc =>
    i = .ret ∨ (∃ nnn, i = .jp nnn ∨ i = .call nnn ∨ i = .jpV0 nnn) ∨
      (∃ x nn, i = .seImm x nn ∨ i = .sneImm x nn) ∨ (∃ x y, i = .seReg x y ∨ i = .sneReg x y) ∨
      ∃ x, i = .skp x ∨ i = .sknp x
  | .stackSlot j => (∃ nnn, i = .call nnn) ∧ j.val = s.sp.val
  | .sp => i = .ret ∨ ∃ nnn, i = .call nnn
  | .dt => ∃ x, i = .ldDtVx x
  | .st => ∃ x, i = .ldStVx x
  | .key _ => False
  | .mode => ∃ x, i = .ldVxK x
  | .pixel _ _ => i = .cls ∨ ∃ x y n, i = .drw x y n
  | .config => False
  | .draws => ∃ x nn, i = .rnd x nn

/-! ## Where a sprite falls (R191, R192) -/

/-- The pixel in column `px` and row `py` is covered by a set and drawn bit of the `n`-row sprite at `I` whose origin is
(`V[x]`, `V[y]`): bit `7 - col` of the byte `row`, at the wrapped coordinate, or with `Q.sprite_clip` on at the offset
from the wrapped origin. -/
def SpriteCovers (s : State) (x y : Reg) (n : Nibble) (py : Fin 32) (px : Fin 64) : Prop :=
  ∃ row col : Nat, row < n.toNat ∧ col < 8 ∧ (s.readByte (s.i.toNat + row)).getLsbD (7 - col) = true ∧
    if s.cfg.q.spriteClip then
      (s.getV x).toNat % 64 + col = px.val ∧ (s.getV y).toNat % 32 + row = py.val
    else
      ((s.getV x).toNat + col) % 64 = px.val ∧ ((s.getV y).toNat + row) % 32 = py.val

end Sys2Proof.Machine
end

