-- ==== Sys2Proof/Certificates/Slice0/Obligations.lean ====
section
/-! DEFINITION. The statements about the model. `s` is the state an instruction executes in, its `PC` already past the
instruction (R9, R120). `OnlyChanges P s t` is the frame: every piece of state, every byte of memory and every pixel
outside `P` is the same in `t` as in `s`. A clause that says what a word written out
decodes to rests on assumption 1 (the bit patterns are the spec's general knowledge, G1). Where a docstring names a
decision D<n> or an assumption, that clause is the spec's own choice or the model's, and the statement's basis is 'derived'. -/

open Sys2Proof Sys2Proof.Machine

/-! ## Encoding -/

/-- Words written out from the encodings of the spec (R91, R95, the tables of B1) decode to their instructions, and
illegal neighbours to none. The words rest on assumption 1. -/
def Obligations.WordsOfTheSpecDecode : Prop :=
  decode 0xD123 = some (.drw 1 2 3) ∧ decode 0x8AB4 = some (.addReg 0xA 0xB) ∧ decode 0xF265 = some (.loadRegs 2) ∧
  decode 0x120C = some (.jp 0x20C) ∧ decode 0x00E0 = some .cls ∧ decode 0xE0A1 = some (.sknp 0) ∧
  decode 0xB234 = some (.jpV0 0x234) ∧ decode 0xF318 = some (.ldStVx 3) ∧
  decode 0x0000 = none ∧ decode 0x5121 = none ∧ decode 0x812D = none ∧ decode 0xE09F = none ∧ decode 0xF130 = none

/-- Decoding the bytes of an instruction gives it back, with every operand at every value, and leaves the bytes after it
(R91, R92, R94, R101). -/
def Obligations.DecodeOfEncodeIsTheInstruction : Prop :=
  ∀ (i : Instr) (rest : List Byte), decodeBytes (encodeBytes i ++ rest) = .instr i rest

/-- A legal word is the word of the instruction it decodes to, so no two instructions share a word (R94). -/
def Obligations.LegalWordIsTheWordOfItsInstruction : Prop :=
  ∀ (w : Word) (i : Instr), decode w = some i → encode i = w

/-- The illegal words are exactly those R96 lists (strict matching is decision D11). -/
def Obligations.IllegalWordsAreThoseListed : Prop :=
  ∀ w : Word, decode w = none ↔
    (w.toNat / 4096 = 0x0 ∧ w.toNat ≠ 0x00E0 ∧ w.toNat ≠ 0x00EE) ∨
    (w.toNat / 4096 = 0x5 ∧ w.toNat % 16 ≠ 0) ∨
    (w.toNat / 4096 = 0x8 ∧ w.toNat % 16 ∈ [0x8, 0x9, 0xA, 0xB, 0xC, 0xD, 0xF]) ∨
    (w.toNat / 4096 = 0x9 ∧ w.toNat % 16 ≠ 0) ∨
    (w.toNat / 4096 = 0xE ∧ w.toNat % 256 ∉ [0x9E, 0xA1]) ∨
    (w.toNat / 4096 = 0xF ∧ w.toNat % 256 ∉ [0x07, 0x0A, 0x15, 0x18, 0x1E, 0x29, 0x33, 0x55, 0x65])

/-! ## Fetch, decode, execute -/

/-- A running step whose fetched word decodes to `i` is `exec i` at the state whose `PC` is advanced by 2 and is otherwise
the same (R242). -/
def Obligations.StepRunsTheDecodedInstruction : Prop :=
  ∀ (s : State) (i : Instr), s.mode = .running → s.pc.toNat ≤ 0xFFE →
    decode (wordOfBytes (s.readByte s.pc.toNat) (s.readByte (s.pc.toNat + 1))) = some i →
    step s = exec i { s with pc := s.pc + 2 }

/-- A running step on an illegal word raises `UnknownOpcode` of that word; the error leaves `PC` past the word and nothing
else changed, and reports the word and its address (R274, R253, R279; D3). -/
def Obligations.StepOnIllegalWordRaisesUnknownOpcode : Prop :=
  ∀ (s : State) (w : Word), s.mode = .running → s.pc.toNat ≤ 0xFFE →
    w = wordOfBytes (s.readByte s.pc.toNat) (s.readByte (s.pc.toNat + 1)) → decode w = none →
    step s = .fault (.unknownOpcode w) ∧
    (stateAfterError .step s).pc = s.pc + 2 ∧ OnlyChanges (· = .pc) s (stateAfterError .step s) ∧
    diagnostics .step s = ⟨some w, some s.pc⟩

/-- A running step whose fetch would leave memory raises `MemoryOutOfBounds` of the lowest address outside, changes
nothing and reports `PC` and no word (R242, R275, R279; D2). -/
def Obligations.FetchOutsideMemoryRaises : Prop :=
  ∀ s : State, s.mode = .running → 0xFFE < s.pc.toNat →
    step s = .fault (.memoryOutOfBounds (max s.pc.toNat 0x1000)) ∧ stateAfterError .step s = s ∧
    diagnostics .step s = ⟨none, some s.pc⟩

/-- While waiting for a key a step changes nothing, raises nothing and reports `AwaitingKey` (R244). -/
def Obligations.WaitingStepIsANoOp : Prop :=
  ∀ (s : State) (r : Reg), s.mode = .awaitingKey r → step s = .next s ∧ s.report = .awaitingKey

/-- A running step that completes reports `AwaitingKey` exactly when it executed `LD VX, K` (R215, R243, R286). -/
def Obligations.OnlyKeyWaitReportsAwaitingKey : Prop :=
  ∀ (s t : State), s.mode = .running → step s = .next t →
    (t.report = .awaitingKey ↔ ∃ x, decode (s.wordAt s.pc.toNat) = some (.ldVxK x))

/-- A store into the instruction stream is seen by the very next fetch, the byte at the lower address being the high byte
of the word (R64, R72): after `LD [I], VX` with `I` at the next instruction, the next step runs what V0 and V1 spell. -/
def Obligations.StoredInstructionIsFetchedNext : Prop :=
  ∀ (s : State) (x : Reg) (i : Instr), s.mem.wf s.background → s.mode = .running → s.i = s.pc → 1 ≤ x.val →
    s.i.toNat + x.val ≤ 0xFFF → decode (wordOfBytes (s.getV 0) (s.getV 1)) = some i →
    ∃ t, exec (.storeRegs x) s = .next t ∧ step t = exec i { t with pc := t.pc + 2 }

/-- A jump to its own address is a fixed point of `step` (R252, R122). -/
def Obligations.SelfLoopIsAFixedPoint : Prop :=
  ∀ (s : State) (nnn : Addr12), s.mode = .running → s.pc.toNat ≤ 0xFFE →
    decode (s.wordAt s.pc.toNat) = some (.jp nnn) → nnn.toNat = s.pc.toNat → step s = .next s

/-! ## Memory -/

/-- A written byte is read back, every other byte is unchanged, and the canonical form is kept (R62, R67; the canonical
form is the model's). -/
def Obligations.ReadAfterWrite : Prop :=
  ∀ (s : State) (a : Nat) (b : Byte), s.mem.wf s.background → a ≤ 0xFFF →
    (s.writeByte a b).readByte a = b ∧ OnlyChanges (· = .byte a) s (s.writeByte a b) ∧
    (s.writeByte a b).mem.wf (s.writeByte a b).background

/-! ## Control transfer -/

/-- `RET`: underflow on an empty stack, else the most recent entry goes to `PC` and `SP` drops by one (R121, R273). The
words rest on assumption 1. -/
def Obligations.RetPopsTheReturnAddress : Prop :=
  decode 0x00EE = some .ret ∧
  ∀ s : State, (s.sp.val = 0 → exec .ret s = .fault .stackUnderflow) ∧
    ∀ j : Fin 16, s.sp.val = j.val + 1 →
      ∃ t, exec .ret s = .next t ∧ t.pc = s.stack.get j ∧ t.sp.val = j.val ∧ OnlyChanges (· ∈ [.pc, .sp]) s t

/-- `JP NNN` (R122; the frame is R120, R36). The words rest on assumption 1. -/
def Obligations.JpGoesToNNN : Prop :=
  ∀ (nnn : Addr12) (s : State), decode (BitVec.ofNat 16 (0x1000 + nnn.toNat)) = some (.jp nnn) ∧
    ∃ t, exec (.jp nnn) s = .next t ∧ t.pc.toNat = nnn.toNat ∧ OnlyChanges (· = .pc) s t

/-- `CALL NNN`: overflow with 16 live entries, else the advanced `PC` is pushed and `PC` is `NNN` (R123, R272). The
words rest on assumption 1. -/
def Obligations.CallPushesTheAdvancedPc : Prop :=
  ∀ (nnn : Addr12) (s : State), decode (BitVec.ofNat 16 (0x2000 + nnn.toNat)) = some (.call nnn) ∧
    (s.sp.val = 16 → exec (.call nnn) s = .fault .stackOverflow) ∧
    ∀ j : Fin 16, s.sp.val = j.val →
      ∃ t, exec (.call nnn) s = .next t ∧ t.stack.get j = s.pc ∧ t.sp.val = j.val + 1 ∧ t.pc.toNat = nnn.toNat ∧
        OnlyChanges (· ∈ [.pc, .sp, .stackSlot j]) s t

/-- A call and a return restore `PC` to the instruction after the call and the stack to what was live, at every depth that
lets the call complete (R121: "CALL NNN then RET restores PC to the instruction following the original CALL"). -/
def Obligations.CallThenRetRoundTrip : Prop :=
  ∀ (nnn : Addr12) (s t : State), exec (.call nnn) s = .next t →
    ∃ u, exec .ret t = .next u ∧ u.pc = s.pc ∧ u.sp = s.sp ∧
      ∀ j : Fin 16, j.val < s.sp.val → u.stack.get j = s.stack.get j

/-- The four comparing skips advance `PC` by a further 2 exactly when their condition holds (R124, R125, R127, and R126
for `5XY0`). The words rest on assumption 1. -/
def Obligations.CompareSkips : Prop :=
  ∀ (x y : Reg) (nn : Byte) (s : State),
    (decode (BitVec.ofNat 16 (0x3000 + 0x100 * x.val + nn.toNat)) = some (.seImm x nn) ∧
      ∃ t, exec (.seImm x nn) s = .next t ∧
      t.pc = (if (s.getV x).toNat = nn.toNat then s.pc + 2 else s.pc) ∧ OnlyChanges (· = .pc) s t) ∧
    (decode (BitVec.ofNat 16 (0x4000 + 0x100 * x.val + nn.toNat)) = some (.sneImm x nn) ∧
      ∃ t, exec (.sneImm x nn) s = .next t ∧
      t.pc = (if (s.getV x).toNat ≠ nn.toNat then s.pc + 2 else s.pc) ∧ OnlyChanges (· = .pc) s t) ∧
    (decode (BitVec.ofNat 16 (0x5000 + 0x100 * x.val + 0x10 * y.val)) = some (.seReg x y) ∧
      ∃ t, exec (.seReg x y) s = .next t ∧
      t.pc = (if (s.getV x).toNat = (s.getV y).toNat then s.pc + 2 else s.pc) ∧ OnlyChanges (· = .pc) s t) ∧
    (decode (BitVec.ofNat 16 (0x9000 + 0x100 * x.val + 0x10 * y.val)) = some (.sneReg x y) ∧
      ∃ t, exec (.sneReg x y) s = .next t ∧
      t.pc = (if (s.getV x).toNat ≠ (s.getV y).toNat then s.pc + 2 else s.pc) ∧ OnlyChanges (· = .pc) s t)

/-- `BNNN`: off, `NNN + V[0]`; on, `V[X] + NN` with `X` and `NN` the two parts of `NNN`; the sum is never wrapped (R128,
C5, D21). The words rest on assumption 1. -/
def Obligations.JumpWithOffset : Prop :=
  ∀ (nnn : Addr12) (x : Reg) (s : State), x.val = nnn.toNat / 256 →
    decode (BitVec.ofNat 16 (0xB000 + nnn.toNat)) = some (.jpV0 nnn) ∧
    ∃ t, exec (.jpV0 nnn) s = .next t ∧
      t.pc.toNat = (if s.cfg.q.jumpOffset = false then nnn.toNat + (s.getV 0).toNat
        else (s.getV x).toNat + nnn.toNat % 256) ∧ OnlyChanges (· = .pc) s t

/-! ## Register load, arithmetic, logic, shift, random -/

/-- `LD VX, NN` and `LD VX, VY` (R140, R142). The words rest on assumption 1. -/
def Obligations.LoadsIntoRegister : Prop :=
  ∀ (x y : Reg) (nn : Byte) (s : State),
    (decode (BitVec.ofNat 16 (0x6000 + 0x100 * x.val + nn.toNat)) = some (.ldImm x nn) ∧
      ∃ t, exec (.ldImm x nn) s = .next t ∧ t.getV x = nn ∧ OnlyChanges (· = .v x) s t) ∧
    (decode (BitVec.ofNat 16 (0x8000 + 0x100 * x.val + 0x10 * y.val)) = some (.ldReg x y) ∧
      ∃ t, exec (.ldReg x y) s = .next t ∧ t.getV x = s.getV y ∧ OnlyChanges (· = .v x) s t)

/-- `ADD VX, NN` wraps mod 256 and has no flag effect (R141). The words rest on assumption 1. -/
def Obligations.AddImmediateWrapsWithoutFlag : Prop :=
  ∀ (x : Reg) (nn : Byte) (s : State),
    decode (BitVec.ofNat 16 (0x7000 + 0x100 * x.val + nn.toNat)) = some (.addImm x nn) ∧
    ∃ t, exec (.addImm x nn) s = .next t ∧ (t.getV x).toNat = ((s.getV x).toNat + nn.toNat) % 256 ∧
      OnlyChanges (· = .v x) s t

/-- `OR`, `AND`, `XOR` bit by bit; `VF` is written only as the destination (R143, R144, R145; D9). The words rest on
assumption 1. -/
def Obligations.LogicLeavesTheFlagAlone : Prop :=
  ∀ (x y : Reg) (s : State),
    (decode (BitVec.ofNat 16 (0x8001 + 0x100 * x.val + 0x10 * y.val)) = some (.orReg x y) ∧
      ∃ t, exec (.orReg x y) s = .next t ∧ OnlyChanges (· = .v x) s t ∧
        ∀ k, (t.getV x).getLsbD k = ((s.getV x).getLsbD k || (s.getV y).getLsbD k)) ∧
    (decode (BitVec.ofNat 16 (0x8002 + 0x100 * x.val + 0x10 * y.val)) = some (.andReg x y) ∧
      ∃ t, exec (.andReg x y) s = .next t ∧ OnlyChanges (· = .v x) s t ∧
        ∀ k, (t.getV x).getLsbD k = ((s.getV x).getLsbD k && (s.getV y).getLsbD k)) ∧
    (decode (BitVec.ofNat 16 (0x8003 + 0x100 * x.val + 0x10 * y.val)) = some (.xorReg x y) ∧
      ∃ t, exec (.xorReg x y) s = .next t ∧ OnlyChanges (· = .v x) s t ∧
        ∀ k, (t.getV x).getLsbD k = ((s.getV x).getLsbD k ^^ (s.getV y).getLsbD k))

/-- `ADD VX, VY`: the wrapped sum, then the carry into `VF`; with X = F the flag wins (R146, R152; the order is D10).
The words rest on assumption 1. -/
def Obligations.AddRegistersWithCarry : Prop :=
  ∀ (x y : Reg) (s : State),
    decode (BitVec.ofNat 16 (0x8004 + 0x100 * x.val + 0x10 * y.val)) = some (.addReg x y) ∧
    ∃ t, exec (.addReg x y) s = .next t ∧
      (x ≠ vf → (t.getV x).toNat = ((s.getV x).toNat + (s.getV y).toNat) % 256) ∧
      (t.getV vf).toNat = (if (s.getV x).toNat + (s.getV y).toNat > 255 then 1 else 0) ∧
      OnlyChanges (· ∈ [.v x, .v vf]) s t

/-- `SUB` and `SUBN`: the wrapped difference, then not-borrow into `VF`, 1 on equality; with X = F the flag wins (R147,
R149, R152; the order is D10). The words rest on assumption 1. -/
def Obligations.SubtractionsWithNotBorrow : Prop :=
  ∀ (x y : Reg) (s : State),
    (decode (BitVec.ofNat 16 (0x8005 + 0x100 * x.val + 0x10 * y.val)) = some (.subReg x y) ∧
      ∃ t, exec (.subReg x y) s = .next t ∧
        (x ≠ vf → ((t.getV x).toNat : Int) = ((s.getV x).toNat - (s.getV y).toNat : Int) % 256) ∧
        (t.getV vf).toNat = (if (s.getV x).toNat ≥ (s.getV y).toNat then 1 else 0) ∧
        OnlyChanges (· ∈ [.v x, .v vf]) s t) ∧
    (decode (BitVec.ofNat 16 (0x8007 + 0x100 * x.val + 0x10 * y.val)) = some (.subn x y) ∧
      ∃ t, exec (.subn x y) s = .next t ∧
        (x ≠ vf → ((t.getV x).toNat : Int) = ((s.getV y).toNat - (s.getV x).toNat : Int) % 256) ∧
        (t.getV vf).toNat = (if (s.getV y).toNat ≥ (s.getV x).toNat then 1 else 0) ∧
        OnlyChanges (· ∈ [.v x, .v vf]) s t)

/-- `SHR` and `SHL` shift the register that `Q.shift_source` selects by one, logically, and put the bit shifted out into
`VF`; with X = F the flag wins (R148, R150, R152; the order is D10). The words rest on assumption 1. -/
def Obligations.ShiftsWithShiftedOutBit : Prop :=
  ∀ (x y : Reg) (s : State) (src : Nat),
    src = (if s.cfg.q.shiftSource = true then (s.getV x).toNat else (s.getV y).toNat) →
    (decode (BitVec.ofNat 16 (0x8006 + 0x100 * x.val + 0x10 * y.val)) = some (.shr x y) ∧
      ∃ t, exec (.shr x y) s = .next t ∧ (x ≠ vf → (t.getV x).toNat = src / 2) ∧ (t.getV vf).toNat = src % 2 ∧
        OnlyChanges (· ∈ [.v x, .v vf]) s t) ∧
    (decode (BitVec.ofNat 16 (0x800E + 0x100 * x.val + 0x10 * y.val)) = some (.shl x y) ∧
      ∃ t, exec (.shl x y) s = .next t ∧ (x ≠ vf → (t.getV x).toNat = src * 2 % 256) ∧ (t.getV vf).toNat = src / 128 ∧
        OnlyChanges (· ∈ [.v x, .v vf]) s t)

/-- `RND VX, NN`: a free byte AND `NN`, so every bit that is 0 in `NN` is 0 and the result is at most `NN`; the next draw
is a fresh one (R151, R249; D17; the draw counter is assumption 4, the model's own). The words rest on assumption 1. -/
def Obligations.RandomIsAFreeByteUnderTheMask : Prop :=
  ∀ (x : Reg) (nn : Byte) (s : State),
    decode (BitVec.ofNat 16 (0xC000 + 0x100 * x.val + nn.toNat)) = some (.rnd x nn) ∧
    ∃ t, exec (.rnd x nn) s = .next t ∧ t.getV x = (Config.rnd s.draws &&& nn) ∧ (t.getV x).toNat ≤ nn.toNat ∧
      (∀ k, nn.getLsbD k = false → (t.getV x).getLsbD k = false) ∧ t.draws = s.draws + 1 ∧
      OnlyChanges (· ∈ [.v x, .draws]) s t

/-! ## Index register and memory -/

/-- `LD I, NNN`, `ADD I, VX` with 16-bit wrap and no flag, `LD F, VX` from the low nibble (R170, R171, R172). The words
rest on assumption 1. -/
def Obligations.IndexRegisterResults : Prop :=
  ∀ (nnn : Addr12) (x : Reg) (s : State),
    (decode (BitVec.ofNat 16 (0xA000 + nnn.toNat)) = some (.ldI nnn) ∧
      ∃ t, exec (.ldI nnn) s = .next t ∧ t.i.toNat = nnn.toNat ∧ OnlyChanges (· = .i) s t) ∧
    (decode (BitVec.ofNat 16 (0xF01E + 0x100 * x.val)) = some (.addI x) ∧ ∃ t, exec (.addI x) s = .next t ∧
      t.i.toNat = (s.i.toNat + (s.getV x).toNat) % 65536 ∧ OnlyChanges (· = .i) s t) ∧
    (decode (BitVec.ofNat 16 (0xF029 + 0x100 * x.val)) = some (.ldF x) ∧ ∃ t, exec (.ldF x) s = .next t ∧
      t.i.toNat = 5 * ((s.getV x).toNat % 16) ∧ OnlyChanges (· = .i) s t)

/-- `LD B, VX` stores hundreds, tens and ones at `I`, `I+1`, `I+2`; no other byte and no register changes (R173; the order
of the digits is D16). The words rest on assumption 1. -/
def Obligations.BcdStoresThreeDigits : Prop :=
  ∀ (x : Reg) (s : State), s.mem.wf s.background → s.base ≤ 0xFFD →
    decode (BitVec.ofNat 16 (0xF033 + 0x100 * x.val)) = some (.ldB x) ∧
    ∃ t, exec (.ldB x) s = .next t ∧ (t.readByte s.base).toNat = (s.getV x).toNat / 100 ∧
      (t.readByte (s.base + 1)).toNat = (s.getV x).toNat / 10 % 10 ∧
      (t.readByte (s.base + 2)).toNat = (s.getV x).toNat % 10 ∧
      OnlyChanges (fun c => ∃ a, c = .byte a ∧ s.base ≤ a ∧ a < s.base + 3) s t

/-- `LD [I], VX` stores V0 to VX at `I` to `I+X` and advances `I` by X + 1 exactly under the quirk (R174). The words
rest on assumption 1. -/
def Obligations.StoreRegisterRange : Prop :=
  ∀ (x : Reg) (s : State), s.mem.wf s.background → s.base + x.val ≤ 0xFFF →
    decode (BitVec.ofNat 16 (0xF055 + 0x100 * x.val)) = some (.storeRegs x) ∧
    ∃ t, exec (.storeRegs x) s = .next t ∧ (∀ k : Reg, k ≤ x → t.readByte (s.base + k.val) = s.getV k) ∧
      t.i.toNat = (if s.cfg.q.memoryIncrement = true then s.i.toNat + x.val + 1 else s.i.toNat) ∧
      OnlyChanges (fun c => c = .i ∨ ∃ a, c = .byte a ∧ s.base ≤ a ∧ a ≤ s.base + x.val) s t

/-- `LD VX, [I]` loads V0 to VX from `I` to `I+X` and advances `I` by X + 1 exactly under the quirk (R175). The words
rest on assumption 1. -/
def Obligations.LoadRegisterRange : Prop :=
  ∀ (x : Reg) (s : State), s.base + x.val ≤ 0xFFF →
    decode (BitVec.ofNat 16 (0xF065 + 0x100 * x.val)) = some (.loadRegs x) ∧
    ∃ t, exec (.loadRegs x) s = .next t ∧ (∀ k : Reg, k ≤ x → t.getV k = s.readByte (s.base + k.val)) ∧
      t.i.toNat = (if s.cfg.q.memoryIncrement = true then s.i.toNat + x.val + 1 else s.i.toNat) ∧
      OnlyChanges (fun c => c = .i ∨ ∃ k, c = .v k ∧ k ≤ x) s t

/-- Each accessing instruction whose range leaves memory raises `MemoryOutOfBounds` of the lowest address outside; `DRW`
with no rows never does (R176, R275; D2, D24). -/
def Obligations.AccessOutsideMemoryRaises : Prop :=
  ∀ (x y : Reg) (n : Nibble) (s : State),
    (0xFFD < s.base → exec (.ldB x) s = .fault (.memoryOutOfBounds (max s.base 0x1000))) ∧
    (0xFFF < s.base + x.val → exec (.storeRegs x) s = .fault (.memoryOutOfBounds (max s.base 0x1000)) ∧
      exec (.loadRegs x) s = .fault (.memoryOutOfBounds (max s.base 0x1000))) ∧
    (n ≠ 0 → 0x1000 < s.base + n.toNat → exec (.drw x y n) s = .fault (.memoryOutOfBounds (max s.base 0x1000))) ∧
    ∃ t, exec (.drw x y 0) s = .next t

/-! ## Display -/

/-- `CLS` turns every pixel off and changes nothing else (R190; the frame is R36). The words rest on assumption 1. -/
def Obligations.ClsTurnsEveryPixelOff : Prop :=
  decode 0x00E0 = some .cls ∧
  ∀ s : State, ∃ t, exec .cls s = .next t ∧ (∀ y x, t.pixel y x = false) ∧
    OnlyChanges (fun c => ∃ y x, c = .pixel y x) s t

/-- `DRW` toggles exactly the pixels its sprite covers, wrapped or clipped as `Q.sprite_clip` says, and leaves `I`,
memory and the registers but `VF` alone (R191; C1; bit order D13, clipped origin D14, range check D24). The words rest
on assumption 1. -/
def Obligations.DrawTogglesTheCoveredPixels : Prop :=
  ∀ (x y : Reg) (n : Nibble) (s : State), n = 0 ∨ s.base + n.toNat ≤ 0x1000 →
    decode (BitVec.ofNat 16 (0xD000 + 0x100 * x.val + 0x10 * y.val + n.toNat)) = some (.drw x y n) ∧
    ∃ t, exec (.drw x y n) s = .next t ∧
      (∀ py px, SpriteCovers s x y n py px → t.pixel py px = !s.pixel py px) ∧
      (∀ py px, ¬SpriteCovers s x y n py px → t.pixel py px = s.pixel py px) ∧
      OnlyChanges (fun c => c = .v vf ∨ ∃ py px, c = .pixel py px) s t

/-- The collision law: `VF` is 1 exactly when some pixel that was on is off afterwards, else 0 (R193, R191). -/
def Obligations.CollisionIsAPixelTurnedOff : Prop :=
  ∀ (x y : Reg) (n : Nibble) (s t : State), exec (.drw x y n) s = .next t →
    ((∃ py px, s.pixel py px = true ∧ t.pixel py px = false) → t.getV vf = 1) ∧
    ((¬∃ py px, s.pixel py px = true ∧ t.pixel py px = false) → t.getV vf = 0)

/-- Drawing the same sprite twice at the same place restores the framebuffer, and the second draw of a sprite drawn on
clear pixels reports a collision exactly when it has a drawn bit (R193). -/
def Obligations.DrawingTwiceRestoresTheScreen : Prop :=
  ∀ (x y : Reg) (n : Nibble) (s t : State), x ≠ vf → y ≠ vf → exec (.drw x y n) s = .next t →
    ∃ u, exec (.drw x y n) t = .next u ∧ u.fb = s.fb ∧
      ((∀ py px, s.pixel py px = false) →
        t.getV vf = 0 ∧ (u.getV vf = 1 ↔ ∃ py px, SpriteCovers s x y n py px))

/-- The two settings of `Q.sprite_clip` draw alike when the sprite crosses neither edge (R191, R232). -/
def Obligations.ClipAndWrapAgreeInsideTheScreen : Prop :=
  ∀ (x y : Reg) (n : Nibble) (s : State) (q : Quirks), (s.getV x).toNat % 64 ≤ 56 →
    (s.getV y).toNat % 32 + n.toNat ≤ 32 →
    exec (.drw x y n) (s.withQuirks q) = mapNext (·.withQuirks q) (exec (.drw x y n) s)

/-! ## Timers and keypad -/

/-- `LD VX, DT`, `LD DT, VX`, `LD ST, VX` are direct transfers, and `sound_active` follows `ST` (R210, R211, R212,
R248). The words rest on assumption 1. -/
def Obligations.TimerTransfers : Prop :=
  ∀ (x : Reg) (s : State),
    (decode (BitVec.ofNat 16 (0xF007 + 0x100 * x.val)) = some (.ldVxDt x) ∧
      ∃ t, exec (.ldVxDt x) s = .next t ∧ t.getV x = s.dt ∧ OnlyChanges (· = .v x) s t) ∧
    (decode (BitVec.ofNat 16 (0xF015 + 0x100 * x.val)) = some (.ldDtVx x) ∧
      ∃ t, exec (.ldDtVx x) s = .next t ∧ t.dt = s.getV x ∧ OnlyChanges (· = .dt) s t) ∧
    (decode (BitVec.ofNat 16 (0xF018 + 0x100 * x.val)) = some (.ldStVx x) ∧
      ∃ t, exec (.ldStVx x) s = .next t ∧ t.st = s.getV x ∧ (t.soundActive = true ↔ s.getV x ≠ 0) ∧
        OnlyChanges (· = .st) s t)

/-- `SKP` and `SKNP` skip on the level of the key whose ordinal is the low nibble of `V[X]` (R213, R214, R216; D12). The
words rest on assumption 1. -/
def Obligations.KeySkips : Prop :=
  ∀ (x : Reg) (s : State) (k : Key), k.val = (s.getV x).toNat % 16 →
    (decode (BitVec.ofNat 16 (0xE09E + 0x100 * x.val)) = some (.skp x) ∧ ∃ t, exec (.skp x) s = .next t ∧
      t.pc = (if s.getKey k = true then s.pc + 2 else s.pc) ∧ OnlyChanges (· = .pc) s t) ∧
    (decode (BitVec.ofNat 16 (0xE0A1 + 0x100 * x.val)) = some (.sknp x) ∧ ∃ t, exec (.sknp x) s = .next t ∧
      t.pc = (if s.getKey k = false then s.pc + 2 else s.pc) ∧ OnlyChanges (· = .pc) s t)

/-- `LD VX, K` sets the key-wait latch for X and changes nothing else; `KEYS` is not examined (R215; D27). The words
rest on assumption 1. -/
def Obligations.KeyWaitSetsTheLatchOnly : Prop :=
  ∀ (x : Reg) (s : State), decode (BitVec.ofNat 16 (0xF00A + 0x100 * x.val)) = some (.ldVxK x) ∧
    ∃ t, exec (.ldVxK x) s = .next t ∧ t.mode = .awaitingKey x ∧ t.report = .awaitingKey ∧ OnlyChanges (· = .mode) s t

/-! ## The other operations -/

/-- `tick_timers` decrements each timer by 1 if nonzero, else leaves it at 0; it touches nothing else, cannot fail, and
works the same in either mode (R245). -/
def Obligations.TickDecrementsBothTimers : Prop :=
  ∀ s : State, perform .tickTimers s = .next (tickTimers s) ∧
    (tickTimers s).dt.toNat = (if s.dt.toNat ≠ 0 then s.dt.toNat - 1 else 0) ∧
    (tickTimers s).st.toNat = (if s.st.toNat ≠ 0 then s.st.toNat - 1 else 0) ∧
    OnlyChanges (· ∈ [.dt, .st]) s (tickTimers s)

/-- In any schedule of ticks and steps in which no step executes `LD DT, VX`, the delay timer ends at its first value less
the number of ticks, and never below 0 (R245, R308, example A6). A step of a waiting core executes nothing, whatever word
its `PC` is at (R244). -/
def Obligations.DelayCountsTicksWhateverTheSteps : Prop :=
  ∀ (ops : List Operation) (s t : State),
    (∀ op ∈ ops, op = .tickTimers ∨ op = .step) →
    (∀ pre post u, ops = pre ++ .step :: post → runSchedule .halt pre s = .next u →
      u.mode = .running → ∀ x, decode (u.wordAt u.pc.toNat) ≠ some (.ldDtVx x)) →
    runSchedule .halt ops s = .next t → t.dt.toNat = s.dt.toNat - ops.count .tickTimers

/-- `step` never changes `DT` or `ST` except through `LD DT, VX` and `LD ST, VX`, and `tick_timers` never changes anything
else (R308). -/
def Obligations.TimersAreDecoupledFromSteps : Prop :=
  (∀ s t : State, step s = .next t →
    (t.dt ≠ s.dt → ∃ x, decode (s.wordAt s.pc.toNat) = some (.ldDtVx x)) ∧
    (t.st ≠ s.st → ∃ x, decode (s.wordAt s.pc.toNat) = some (.ldStVx x))) ∧
  ∀ s : State, OnlyChanges (· ∈ [.dt, .st]) s (tickTimers s)

/-- `set_key_state` records the level; a press while waiting also puts the ordinal into the latched register and clears
the latch, whatever the key's recorded level was; nothing else changes and it cannot fail (R246; C4, D18). -/
def Obligations.SetKeyStateRecordsAndDelivers : Prop :=
  ∀ (k : Key) (pressed : Bool) (s : State), perform (.setKeyState k pressed) s = .next (setKeyState k pressed s) ∧
    (setKeyState k pressed s).getKey k = pressed ∧
    (pressed = false ∨ s.mode = .running → OnlyChanges (· = .key k) s (setKeyState k pressed s)) ∧
    ∀ r, pressed = true → s.mode = .awaitingKey r →
      ((setKeyState k pressed s).getV r).toNat = k.val ∧ (setKeyState k pressed s).mode = .running ∧
      OnlyChanges (· ∈ [.key k, .v r, .mode]) s (setKeyState k pressed s)

/-- The wait of a waiting core ends only by a press or by a load, in particular not by a tick, a release or a step (R286,
R215). -/
def Obligations.WaitEndsOnlyByPressOrLoad : Prop :=
  ∀ (op : Operation) (s t : State) (r : Reg), s.mode = .awaitingKey r → perform op s = .next t →
    t.mode ≠ .awaitingKey r →
    t.mode = .running ∧ ((∃ bytes, op = .load bytes) ∨ ∃ k, op = .setKeyState k true)

/-- `load` of at most 3584 bytes resets every piece of state, writes the bytes from 0x200 on over the reset contents and
keeps the configuration (R301, R77, R37; the fill is D6, the other reset values D20; that the draw counter goes on is
assumption 4). -/
def Obligations.LoadResetsAndWritesTheProgram : Prop :=
  ∀ (bytes : List Byte) (s : State), bytes.length ≤ 3584 →
    ∃ t, perform (.load bytes) s = .next t ∧ t.cfg = s.cfg ∧ t.mem.wf t.background ∧
      (∀ r, t.getV r = 0) ∧ t.i = 0 ∧ t.pc = 0x200 ∧ t.sp = 0 ∧ (∀ j, t.stack.get j = 0) ∧ t.dt = 0 ∧ t.st = 0 ∧
      (∀ k, t.getKey k = false) ∧ t.mode = .running ∧ (∀ y x, t.pixel y x = false) ∧
      (∀ k (h : k < bytes.length), t.readByte (0x200 + k) = bytes[k]) ∧
      (∀ a (h : a < 80), t.readByte a = s.cfg.font[a]) ∧
      (∀ a, 80 ≤ a → a < 0x200 ∨ 0x200 + bytes.length ≤ a → t.readByte a = 0) ∧ t.draws = s.draws

/-- `load` of more than 3584 bytes fails with `ProgramTooLarge`, changes nothing and reports neither word nor address
(R271, R302, R279; D5). -/
def Obligations.LoadTooLargeFails : Prop :=
  ∀ (bytes : List Byte) (s : State), 3584 < bytes.length →
    perform (.load bytes) s = .fault .programTooLarge ∧ stateAfterError (.load bytes) s = s ∧
    diagnostics (.load bytes) s = ⟨none, none⟩

/-- After a load, the first step runs the instruction in the first two bytes of the program (R304, R77, R64). -/
def Obligations.LoadedProgramRunsFromItsFirstWord : Prop :=
  ∀ (hi lo : Byte) (rest : List Byte) (s : State) (i : Instr), rest.length + 2 ≤ 3584 →
    decode (wordOfBytes hi lo) = some i →
    ∃ t, perform (.load (hi :: lo :: rest)) s = .next t ∧ step t = exec i { t with pc := 0x202 }

/-! ## Reset -/

/-- Construction puts every piece of state at its reset value, under every configuration (R37, R300; the fill is D6,
timers, keys, latch, stack and `I` are D20); `State.reset` is that state under the model's default configuration
(assumptions 2 and 3). -/
def Obligations.ConstructionResetsEverything : Prop :=
  (∀ cfg : CoreConfig,
    (∀ r, (State.new cfg).getV r = 0) ∧ (State.new cfg).i = 0 ∧ (State.new cfg).pc = 0x200 ∧ (State.new cfg).sp = 0 ∧
    (∀ j, (State.new cfg).stack.get j = 0) ∧ (State.new cfg).dt = 0 ∧ (State.new cfg).st = 0 ∧
    (∀ k, (State.new cfg).getKey k = false) ∧ (State.new cfg).mode = .running ∧
    (∀ y x, (State.new cfg).pixel y x = false) ∧
    (∀ a (h : a < 80), (State.new cfg).readByte a = cfg.font[a]) ∧
    (∀ a, 80 ≤ a → (State.new cfg).readByte a = 0) ∧ (State.new cfg).cfg = cfg) ∧
  State.reset = State.new defaultConfig

/-- Stepping a constructed core before any load raises `UnknownOpcode(0x0000)` and leaves `PC` at 0x202 (R310; D23). -/
def Obligations.StepWithNoProgramRaises : Prop :=
  ∀ cfg : CoreConfig, step (State.new cfg) = .fault (.unknownOpcode 0x0000) ∧
    (stateAfterError .step (State.new cfg)).pc = 0x202

/-! ## Errors -/

/-- Errors are precise: whatever error a step raises, at most `PC` has changed, by 2 when the fetch succeeded and not at
all when it failed, and the reported address is the address fetched from (R279, R253; D3). -/
def Obligations.StepErrorsArePrecise : Prop :=
  ∀ (s : State) (e : Fault), step s = .fault e →
    OnlyChanges (· = .pc) s (stateAfterError .step s) ∧ (diagnostics .step s).address = some s.pc ∧
    (s.pc.toNat ≤ 0xFFE → (stateAfterError .step s).pc.toNat = s.pc.toNat + 2 ∧
      (diagnostics .step s).word = some (s.wordAt s.pc.toNat)) ∧
    (0xFFE < s.pc.toNat → (stateAfterError .step s).pc = s.pc ∧ (diagnostics .step s).word = none)

/-- Which errors an instruction raises, and when: exactly those of R270, and no instruction is refused (R270, R272, R273,
R275, R278). -/
def Obligations.InstructionErrorsAreExactlyThoseListed : Prop :=
  ∀ (i : Instr) (s : State),
    (∀ r, exec i s ≠ .refused r) ∧
    ∀ e, exec i s = .fault e ↔
      (e = .stackOverflow ∧ s.sp.val = 16 ∧ ∃ nnn, i = .call nnn) ∨
      (e = .stackUnderflow ∧ s.sp.val = 0 ∧ i = .ret) ∨
      (e = .memoryOutOfBounds (max s.base 0x1000) ∧
        ((∃ x, i = .ldB x ∧ 0xFFF < s.base + 2) ∨
          (∃ x, (i = .storeRegs x ∨ i = .loadRegs x) ∧ 0xFFF < s.base + x.val) ∨
          ∃ x y n, i = .drw x y n ∧ 0 < n.toNat ∧ 0x1000 < s.base + n.toNat))

/-- Under the policy `skip` an error of `step` is passed over: the run goes on from the state the error left; under
`halt` it ends the run (R280, U1; D4). -/
def Obligations.FaultPolicyHaltsOrSkips : Prop :=
  ∀ (s : State) (e : Fault) (ops : List Operation), step s = .fault e →
    runSchedule .halt (.step :: ops) s = .fault e ∧
    runSchedule .skip (.step :: ops) s = runSchedule .skip ops (stateAfterError .step s)

/-! ## Whole-machine rules -/

/-- The matrix of R36 for instructions: a completed instruction changes no piece of state that R36 does not let it
write. -/
def Obligations.InstructionsWriteOnlyWhatTheyMay : Prop :=
  ∀ (i : Instr) (s t : State), s.mem.wf s.background → exec i s = .next t →
    OnlyChanges (fun c => c.writtenBy s i) s t

/-- No operation changes the configuration (R32, R230, R36). -/
def Obligations.ConfigurationNeverChanges : Prop :=
  ∀ (policy : FaultPolicy) (ops : List Operation) (s t : State), runSchedule policy ops s = .next t → t.cfg = s.cfg

/-- Each quirk is consulted only by the instructions R231 names: an instruction does the same under every setting that
agrees on the quirk it reads (R230, R231, R232). -/
def Obligations.QuirksActOnlyWhereNamed : Prop :=
  ∀ (i : Instr) (s : State) (q : Quirks), quirksAgreeFor i q s.cfg.q →
    exec i (s.withQuirks q) = mapNext (·.withQuirks q) (exec i s)

/-- The sound timer cannot be observed by a program: with any other `ST` a step does the same but for `ST` (R28, R38). -/
def Obligations.SoundTimerIsUnobservable : Prop :=
  ∀ (s : State) (b : Byte),
    (∃ t b', step s = .next t ∧ step (s.setSt b) = .next (t.setSt b')) ∨
    ∃ e, step s = .fault e ∧ step (s.setSt b) = .fault e

/-- The invariant holds after construction, under every configuration (R37, R40). -/
def Obligations.InvariantHoldsAtReset : Prop :=
  State.reset.Inv ∧ ∀ cfg : CoreConfig, (State.new cfg).Inv

/-- Every step of the machine keeps the invariant and the configuration, whichever operation it is (`step`, `load`,
`tick_timers`, `set_key_state`) and also when the driver goes on from the state an error left: from every state with
canonical memory, `PC <= 0x10FE` and return addresses at most 0x1000 (R25, R40, R241, R279, R280; the canonical form and
the bound on return addresses are the model's). Under `halt` the case of `step` is `Machine.step` itself. -/
def Obligations.StepKeepsTheInvariant : Prop :=
  ∀ (policy : FaultPolicy) (op : Operation) (s t : State), s.Inv → performUnder policy op s = .next t →
    t.Inv ∧ t.cfg = s.cfg

/-- Every reachable state meets the invariant, whatever the schedule of loads, steps, ticks and key events, also when the
driver goes on after errors (R40, R241, R280). -/
def Obligations.ReachableStatesMeetTheInvariant : Prop :=
  ∀ (cfg : CoreConfig) (s : State), Reachable cfg s → s.Inv ∧ s.cfg = cfg
end

