-- ==== Sys2Proof/Laws/PerInstr.lean ====
section
/-! SUPPORT. Facts about every instruction, one lemma per constructor: the operands are always in range, and the word of
an instruction lies in the row of spec/opcode_table.json that it stands for (its `match` under its `mask`). -/

namespace Sys2Proof.Laws

/-- The types carry the operand ranges (R93). -/
theorem wellFormed_always (i : Instr) : i.wellFormed = true := by
  cases i <;> simp [Instr.wellFormed] <;> bv_omega

/-! ### Words of the three shapes, as numbers -/

theorem wordNNN_toNat (op : Nibble) (nnn : Addr12) : (wordNNN op nnn).toNat = op.toNat * 4096 + nnn.toNat := by
  simp only [wordNNN, BitVec.toNat_append]
  rw [← Nat.shiftLeft_add_eq_or_of_lt nnn.isLt, Nat.shiftLeft_eq]

theorem wordXNN_toNat (op : Nibble) (x : Reg) (nn : Byte) :
    (wordXNN op x nn).toNat = op.toNat * 4096 + x.val * 256 + nn.toNat := by
  have hx : (regBits x).toNat = x.val := rfl
  simp only [wordXNN, BitVec.toNat_append]
  rw [← Nat.shiftLeft_add_eq_or_of_lt nn.isLt, ← Nat.shiftLeft_add_eq_or_of_lt (regBits x).isLt, hx]
  simp only [Nat.shiftLeft_eq]
  omega

theorem wordXYN_toNat (op : Nibble) (x y : Reg) (n : Nibble) :
    (wordXYN op x y n).toNat = op.toNat * 4096 + x.val * 256 + y.val * 16 + n.toNat := by
  have hx : (regBits x).toNat = x.val := rfl
  have hy : (regBits y).toNat = y.val := rfl
  simp only [wordXYN, BitVec.toNat_append]
  rw [← Nat.shiftLeft_add_eq_or_of_lt n.isLt, ← Nat.shiftLeft_add_eq_or_of_lt (regBits y).isLt,
    ← Nat.shiftLeft_add_eq_or_of_lt (regBits x).isLt, hx, hy]
  simp only [Nat.shiftLeft_eq]
  omega

end Sys2Proof.Laws

namespace Sys2Proof.Laws.OpcodeRow

/-- The `mask` of each instruction's row: by its format (R92). -/
def rowMask : Format → Nat
  | .fix => 0xFFFF
  | .nnn => 0xF000
  | .xnn => 0xF000
  | .xy => 0xF00F
  | .xyn => 0xF000
  | .x => 0xF0FF

/-- The `match` of each instruction's row (R95). -/
def rowMatch : Instr → Nat
  | .cls => 0x00E0 | .ret => 0x00EE | .jp _ => 0x1000 | .call _ => 0x2000 | .seImm _ _ => 0x3000 | .sneImm _ _ => 0x4000
  | .seReg _ _ => 0x5000 | .ldImm _ _ => 0x6000 | .addImm _ _ => 0x7000 | .ldReg _ _ => 0x8000 | .orReg _ _ => 0x8001
  | .andReg _ _ => 0x8002 | .xorReg _ _ => 0x8003 | .addReg _ _ => 0x8004 | .subReg _ _ => 0x8005 | .shr _ _ => 0x8006
  | .subn _ _ => 0x8007 | .shl _ _ => 0x800E | .sneReg _ _ => 0x9000 | .ldI _ => 0xA000 | .jpV0 _ => 0xB000
  | .rnd _ _ => 0xC000 | .drw _ _ _ => 0xD000 | .skp _ => 0xE09E | .sknp _ => 0xE0A1 | .ldVxDt _ => 0xF007
  | .ldVxK _ => 0xF00A | .ldDtVx _ => 0xF015 | .ldStVx _ => 0xF018 | .addI _ => 0xF01E | .ldF _ => 0xF029
  | .ldB _ => 0xF033 | .storeRegs _ => 0xF055 | .loadRegs _ => 0xF065

/-- The word of `i` selects its own row: `w and mask = match` (30_encoding.md). -/
def Statement (i : Instr) : Prop := encode i &&& BitVec.ofNat 16 (rowMask i.format) = BitVec.ofNat 16 (rowMatch i)

/-! ### The mask keeps the fixed fields and clears the operand fields, format by format -/

theorem mask_nnn (op : Nibble) (nnn : Addr12) : wordNNN op nnn &&& 0xF000#16 = wordNNN op 0 := by
  refine BitVec.eq_of_getLsbD_eq fun i hi => ?_
  simp only [wordNNN, BitVec.getLsbD_and, BitVec.getLsbD_append]
  interval_cases i <;> simp

theorem mask_xnn (op : Nibble) (x : Reg) (nn : Byte) : wordXNN op x nn &&& 0xF000#16 = wordXNN op 0 0 := by
  refine BitVec.eq_of_getLsbD_eq fun i hi => ?_
  simp only [wordXNN, BitVec.getLsbD_and, BitVec.getLsbD_append]
  interval_cases i <;> simp [regBits]

theorem mask_x (op : Nibble) (x : Reg) (nn : Byte) : wordXNN op x nn &&& 0xF0FF#16 = wordXNN op 0 nn := by
  refine BitVec.eq_of_getLsbD_eq fun i hi => ?_
  simp only [wordXNN, BitVec.getLsbD_and, BitVec.getLsbD_append]
  interval_cases i <;> simp [regBits]

theorem mask_xy (op : Nibble) (x y : Reg) (n : Nibble) : wordXYN op x y n &&& 0xF00F#16 = wordXYN op 0 0 n := by
  refine BitVec.eq_of_getLsbD_eq fun i hi => ?_
  simp only [wordXYN, BitVec.getLsbD_and, BitVec.getLsbD_append]
  interval_cases i <;> simp [regBits]

theorem mask_xyn (op : Nibble) (x y : Reg) (n : Nibble) : wordXYN op x y n &&& 0xF000#16 = wordXYN op 0 0 0 := by
  refine BitVec.eq_of_getLsbD_eq fun i hi => ?_
  simp only [wordXYN, BitVec.getLsbD_and, BitVec.getLsbD_append]
  interval_cases i <;> simp [regBits]

/-! ### One lemma per instruction -/

theorem cls : Statement .cls := by unfold Statement; decide
theorem ret : Statement .ret := by unfold Statement; decide
theorem jp (nnn : Addr12) : Statement (.jp nnn) := (mask_nnn 0x1 nnn).trans (by simp only [rowMatch]; decide)
theorem call (nnn : Addr12) : Statement (.call nnn) := (mask_nnn 0x2 nnn).trans (by simp only [rowMatch]; decide)
theorem seImm (x : Reg) (nn : Byte) : Statement (.seImm x nn) := (mask_xnn 0x3 x nn).trans (by simp only [rowMatch]; decide)
theorem sneImm (x : Reg) (nn : Byte) : Statement (.sneImm x nn) := (mask_xnn 0x4 x nn).trans (by simp only [rowMatch]; decide)
theorem seReg (x y : Reg) : Statement (.seReg x y) := (mask_xy 0x5 x y 0x0).trans (by simp only [rowMatch]; decide)
theorem ldImm (x : Reg) (nn : Byte) : Statement (.ldImm x nn) := (mask_xnn 0x6 x nn).trans (by simp only [rowMatch]; decide)
theorem addImm (x : Reg) (nn : Byte) : Statement (.addImm x nn) := (mask_xnn 0x7 x nn).trans (by simp only [rowMatch]; decide)
theorem ldReg (x y : Reg) : Statement (.ldReg x y) := (mask_xy 0x8 x y 0x0).trans (by simp only [rowMatch]; decide)
theorem orReg (x y : Reg) : Statement (.orReg x y) := (mask_xy 0x8 x y 0x1).trans (by simp only [rowMatch]; decide)
theorem andReg (x y : Reg) : Statement (.andReg x y) := (mask_xy 0x8 x y 0x2).trans (by simp only [rowMatch]; decide)
theorem xorReg (x y : Reg) : Statement (.xorReg x y) := (mask_xy 0x8 x y 0x3).trans (by simp only [rowMatch]; decide)
theorem addReg (x y : Reg) : Statement (.addReg x y) := (mask_xy 0x8 x y 0x4).trans (by simp only [rowMatch]; decide)
theorem subReg (x y : Reg) : Statement (.subReg x y) := (mask_xy 0x8 x y 0x5).trans (by simp only [rowMatch]; decide)
theorem shr (x y : Reg) : Statement (.shr x y) := (mask_xy 0x8 x y 0x6).trans (by simp only [rowMatch]; decide)
theorem subn (x y : Reg) : Statement (.subn x y) := (mask_xy 0x8 x y 0x7).trans (by simp only [rowMatch]; decide)
theorem shl (x y : Reg) : Statement (.shl x y) := (mask_xy 0x8 x y 0xE).trans (by simp only [rowMatch]; decide)
theorem sneReg (x y : Reg) : Statement (.sneReg x y) := (mask_xy 0x9 x y 0x0).trans (by simp only [rowMatch]; decide)
theorem ldI (nnn : Addr12) : Statement (.ldI nnn) := (mask_nnn 0xA nnn).trans (by simp only [rowMatch]; decide)
theorem jpV0 (nnn : Addr12) : Statement (.jpV0 nnn) := (mask_nnn 0xB nnn).trans (by simp only [rowMatch]; decide)
theorem rnd (x : Reg) (nn : Byte) : Statement (.rnd x nn) := (mask_xnn 0xC x nn).trans (by simp only [rowMatch]; decide)
theorem drw (x y : Reg) (n : Nibble) : Statement (.drw x y n) := (mask_xyn 0xD x y n).trans (by simp only [rowMatch]; decide)
theorem skp (x : Reg) : Statement (.skp x) := (mask_x 0xE x 0x9E).trans (by simp only [rowMatch]; decide)
theorem sknp (x : Reg) : Statement (.sknp x) := (mask_x 0xE x 0xA1).trans (by simp only [rowMatch]; decide)
theorem ldVxDt (x : Reg) : Statement (.ldVxDt x) := (mask_x 0xF x 0x07).trans (by simp only [rowMatch]; decide)
theorem ldVxK (x : Reg) : Statement (.ldVxK x) := (mask_x 0xF x 0x0A).trans (by simp only [rowMatch]; decide)
theorem ldDtVx (x : Reg) : Statement (.ldDtVx x) := (mask_x 0xF x 0x15).trans (by simp only [rowMatch]; decide)
theorem ldStVx (x : Reg) : Statement (.ldStVx x) := (mask_x 0xF x 0x18).trans (by simp only [rowMatch]; decide)
theorem addI (x : Reg) : Statement (.addI x) := (mask_x 0xF x 0x1E).trans (by simp only [rowMatch]; decide)
theorem ldF (x : Reg) : Statement (.ldF x) := (mask_x 0xF x 0x29).trans (by simp only [rowMatch]; decide)
theorem ldB (x : Reg) : Statement (.ldB x) := (mask_x 0xF x 0x33).trans (by simp only [rowMatch]; decide)
theorem storeRegs (x : Reg) : Statement (.storeRegs x) := (mask_x 0xF x 0x55).trans (by simp only [rowMatch]; decide)
theorem loadRegs (x : Reg) : Statement (.loadRegs x) := (mask_x 0xF x 0x65).trans (by simp only [rowMatch]; decide)

/-- Every instruction's word selects its own row of the opcode table. -/
theorem all (i : Instr) : Statement i := by
  cases i
  case cls => exact cls
  case ret => exact ret
  case jp nnn => exact jp nnn
  case call nnn => exact call nnn
  case seImm x nn => exact seImm x nn
  case sneImm x nn => exact sneImm x nn
  case seReg x y => exact seReg x y
  case ldImm x nn => exact ldImm x nn
  case addImm x nn => exact addImm x nn
  case ldReg x y => exact ldReg x y
  case orReg x y => exact orReg x y
  case andReg x y => exact andReg x y
  case xorReg x y => exact xorReg x y
  case addReg x y => exact addReg x y
  case subReg x y => exact subReg x y
  case shr x y => exact shr x y
  case subn x y => exact subn x y
  case shl x y => exact shl x y
  case sneReg x y => exact sneReg x y
  case ldI nnn => exact ldI nnn
  case jpV0 nnn => exact jpV0 nnn
  case rnd x nn => exact rnd x nn
  case drw x y n => exact drw x y n
  case skp x => exact skp x
  case sknp x => exact sknp x
  case ldVxDt x => exact ldVxDt x
  case ldVxK x => exact ldVxK x
  case ldDtVx x => exact ldDtVx x
  case ldStVx x => exact ldStVx x
  case addI x => exact addI x
  case ldF x => exact ldF x
  case ldB x => exact ldB x
  case storeRegs x => exact storeRegs x
  case loadRegs x => exact loadRegs x

end Sys2Proof.Laws.OpcodeRow
end

