-- ==== Sys2Proof/Laws/State.lean ====
section
/-! SUPPORT. One lemma per field and update of the state, each true by rfl, so that no later proof unfolds a record
update. The fields an update writes come first in each group. -/

namespace Sys2Proof.Machine

variable (s : State)

/-! ### `State.setV` -/

@[simp] theorem State.setV_mem (r : Reg) (b : Byte) : (s.setV r b).mem = s.mem := rfl
@[simp] theorem State.setV_v (r : Reg) (b : Byte) : (s.setV r b).v = s.v.set r.val b r.isLt := rfl
@[simp] theorem State.setV_i (r : Reg) (b : Byte) : (s.setV r b).i = s.i := rfl
@[simp] theorem State.setV_pc (r : Reg) (b : Byte) : (s.setV r b).pc = s.pc := rfl
@[simp] theorem State.setV_stack (r : Reg) (b : Byte) : (s.setV r b).stack = s.stack := rfl
@[simp] theorem State.setV_sp (r : Reg) (b : Byte) : (s.setV r b).sp = s.sp := rfl
@[simp] theorem State.setV_dt (r : Reg) (b : Byte) : (s.setV r b).dt = s.dt := rfl
@[simp] theorem State.setV_st (r : Reg) (b : Byte) : (s.setV r b).st = s.st := rfl
@[simp] theorem State.setV_keys (r : Reg) (b : Byte) : (s.setV r b).keys = s.keys := rfl
@[simp] theorem State.setV_mode (r : Reg) (b : Byte) : (s.setV r b).mode = s.mode := rfl
@[simp] theorem State.setV_fb (r : Reg) (b : Byte) : (s.setV r b).fb = s.fb := rfl
@[simp] theorem State.setV_cfg (r : Reg) (b : Byte) : (s.setV r b).cfg = s.cfg := rfl
@[simp] theorem State.setV_draws (r : Reg) (b : Byte) : (s.setV r b).draws = s.draws := rfl
@[simp] theorem State.setV_getKey (r : Reg) (b : Byte) (q : Key) : (s.setV r b).getKey q = s.getKey q := rfl
@[simp] theorem State.setV_pixel (r : Reg) (b : Byte) (y : Fin 32) (q : Fin 64) : (s.setV r b).pixel y q = s.pixel y q := rfl
@[simp] theorem State.setV_readByte (r : Reg) (b : Byte) (q : Nat) : (s.setV r b).readByte q = s.readByte q := rfl
@[simp] theorem State.setV_base (r : Reg) (b : Byte) : (s.setV r b).base = s.base := rfl
@[simp] theorem State.setV_background (r : Reg) (b : Byte) : (s.setV r b).background = s.background := rfl

/-! ### `State.setI` -/

@[simp] theorem State.setI_mem (a : Word) : (s.setI a).mem = s.mem := rfl
@[simp] theorem State.setI_v (a : Word) : (s.setI a).v = s.v := rfl
@[simp] theorem State.setI_i (a : Word) : (s.setI a).i = a := rfl
@[simp] theorem State.setI_pc (a : Word) : (s.setI a).pc = s.pc := rfl
@[simp] theorem State.setI_stack (a : Word) : (s.setI a).stack = s.stack := rfl
@[simp] theorem State.setI_sp (a : Word) : (s.setI a).sp = s.sp := rfl
@[simp] theorem State.setI_dt (a : Word) : (s.setI a).dt = s.dt := rfl
@[simp] theorem State.setI_st (a : Word) : (s.setI a).st = s.st := rfl
@[simp] theorem State.setI_keys (a : Word) : (s.setI a).keys = s.keys := rfl
@[simp] theorem State.setI_mode (a : Word) : (s.setI a).mode = s.mode := rfl
@[simp] theorem State.setI_fb (a : Word) : (s.setI a).fb = s.fb := rfl
@[simp] theorem State.setI_cfg (a : Word) : (s.setI a).cfg = s.cfg := rfl
@[simp] theorem State.setI_draws (a : Word) : (s.setI a).draws = s.draws := rfl
@[simp] theorem State.setI_getV (a : Word) (q : Reg) : (s.setI a).getV q = s.getV q := rfl
@[simp] theorem State.setI_getKey (a : Word) (q : Key) : (s.setI a).getKey q = s.getKey q := rfl
@[simp] theorem State.setI_pixel (a : Word) (y : Fin 32) (q : Fin 64) : (s.setI a).pixel y q = s.pixel y q := rfl
@[simp] theorem State.setI_readByte (a : Word) (q : Nat) : (s.setI a).readByte q = s.readByte q := rfl
@[simp] theorem State.setI_background (a : Word) : (s.setI a).background = s.background := rfl

/-! ### `State.setPc` -/

@[simp] theorem State.setPc_mem (a : Word) : (s.setPc a).mem = s.mem := rfl
@[simp] theorem State.setPc_v (a : Word) : (s.setPc a).v = s.v := rfl
@[simp] theorem State.setPc_i (a : Word) : (s.setPc a).i = s.i := rfl
@[simp] theorem State.setPc_pc (a : Word) : (s.setPc a).pc = a := rfl
@[simp] theorem State.setPc_stack (a : Word) : (s.setPc a).stack = s.stack := rfl
@[simp] theorem State.setPc_sp (a : Word) : (s.setPc a).sp = s.sp := rfl
@[simp] theorem State.setPc_dt (a : Word) : (s.setPc a).dt = s.dt := rfl
@[simp] theorem State.setPc_st (a : Word) : (s.setPc a).st = s.st := rfl
@[simp] theorem State.setPc_keys (a : Word) : (s.setPc a).keys = s.keys := rfl
@[simp] theorem State.setPc_mode (a : Word) : (s.setPc a).mode = s.mode := rfl
@[simp] theorem State.setPc_fb (a : Word) : (s.setPc a).fb = s.fb := rfl
@[simp] theorem State.setPc_cfg (a : Word) : (s.setPc a).cfg = s.cfg := rfl
@[simp] theorem State.setPc_draws (a : Word) : (s.setPc a).draws = s.draws := rfl
@[simp] theorem State.setPc_getV (a : Word) (q : Reg) : (s.setPc a).getV q = s.getV q := rfl
@[simp] theorem State.setPc_getKey (a : Word) (q : Key) : (s.setPc a).getKey q = s.getKey q := rfl
@[simp] theorem State.setPc_pixel (a : Word) (y : Fin 32) (q : Fin 64) : (s.setPc a).pixel y q = s.pixel y q := rfl
@[simp] theorem State.setPc_readByte (a : Word) (q : Nat) : (s.setPc a).readByte q = s.readByte q := rfl
@[simp] theorem State.setPc_base (a : Word) : (s.setPc a).base = s.base := rfl
@[simp] theorem State.setPc_background (a : Word) : (s.setPc a).background = s.background := rfl

/-! ### `State.setDt` -/

@[simp] theorem State.setDt_mem (b : Byte) : (s.setDt b).mem = s.mem := rfl
@[simp] theorem State.setDt_v (b : Byte) : (s.setDt b).v = s.v := rfl
@[simp] theorem State.setDt_i (b : Byte) : (s.setDt b).i = s.i := rfl
@[simp] theorem State.setDt_pc (b : Byte) : (s.setDt b).pc = s.pc := rfl
@[simp] theorem State.setDt_stack (b : Byte) : (s.setDt b).stack = s.stack := rfl
@[simp] theorem State.setDt_sp (b : Byte) : (s.setDt b).sp = s.sp := rfl
@[simp] theorem State.setDt_dt (b : Byte) : (s.setDt b).dt = b := rfl
@[simp] theorem State.setDt_st (b : Byte) : (s.setDt b).st = s.st := rfl
@[simp] theorem State.setDt_keys (b : Byte) : (s.setDt b).keys = s.keys := rfl
@[simp] theorem State.setDt_mode (b : Byte) : (s.setDt b).mode = s.mode := rfl
@[simp] theorem State.setDt_fb (b : Byte) : (s.setDt b).fb = s.fb := rfl
@[simp] theorem State.setDt_cfg (b : Byte) : (s.setDt b).cfg = s.cfg := rfl
@[simp] theorem State.setDt_draws (b : Byte) : (s.setDt b).draws = s.draws := rfl
@[simp] theorem State.setDt_getV (b : Byte) (q : Reg) : (s.setDt b).getV q = s.getV q := rfl
@[simp] theorem State.setDt_getKey (b : Byte) (q : Key) : (s.setDt b).getKey q = s.getKey q := rfl
@[simp] theorem State.setDt_pixel (b : Byte) (y : Fin 32) (q : Fin 64) : (s.setDt b).pixel y q = s.pixel y q := rfl
@[simp] theorem State.setDt_readByte (b : Byte) (q : Nat) : (s.setDt b).readByte q = s.readByte q := rfl
@[simp] theorem State.setDt_base (b : Byte) : (s.setDt b).base = s.base := rfl
@[simp] theorem State.setDt_background (b : Byte) : (s.setDt b).background = s.background := rfl

/-! ### `State.setSt` -/

@[simp] theorem State.setSt_mem (b : Byte) : (s.setSt b).mem = s.mem := rfl
@[simp] theorem State.setSt_v (b : Byte) : (s.setSt b).v = s.v := rfl
@[simp] theorem State.setSt_i (b : Byte) : (s.setSt b).i = s.i := rfl
@[simp] theorem State.setSt_pc (b : Byte) : (s.setSt b).pc = s.pc := rfl
@[simp] theorem State.setSt_stack (b : Byte) : (s.setSt b).stack = s.stack := rfl
@[simp] theorem State.setSt_sp (b : Byte) : (s.setSt b).sp = s.sp := rfl
@[simp] theorem State.setSt_dt (b : Byte) : (s.setSt b).dt = s.dt := rfl
@[simp] theorem State.setSt_st (b : Byte) : (s.setSt b).st = b := rfl
@[simp] theorem State.setSt_keys (b : Byte) : (s.setSt b).keys = s.keys := rfl
@[simp] theorem State.setSt_mode (b : Byte) : (s.setSt b).mode = s.mode := rfl
@[simp] theorem State.setSt_fb (b : Byte) : (s.setSt b).fb = s.fb := rfl
@[simp] theorem State.setSt_cfg (b : Byte) : (s.setSt b).cfg = s.cfg := rfl
@[simp] theorem State.setSt_draws (b : Byte) : (s.setSt b).draws = s.draws := rfl
@[simp] theorem State.setSt_getV (b : Byte) (q : Reg) : (s.setSt b).getV q = s.getV q := rfl
@[simp] theorem State.setSt_getKey (b : Byte) (q : Key) : (s.setSt b).getKey q = s.getKey q := rfl
@[simp] theorem State.setSt_pixel (b : Byte) (y : Fin 32) (q : Fin 64) : (s.setSt b).pixel y q = s.pixel y q := rfl
@[simp] theorem State.setSt_readByte (b : Byte) (q : Nat) : (s.setSt b).readByte q = s.readByte q := rfl
@[simp] theorem State.setSt_base (b : Byte) : (s.setSt b).base = s.base := rfl
@[simp] theorem State.setSt_background (b : Byte) : (s.setSt b).background = s.background := rfl

/-! ### `State.setMode` -/

@[simp] theorem State.setMode_mem (m : Mode) : (s.setMode m).mem = s.mem := rfl
@[simp] theorem State.setMode_v (m : Mode) : (s.setMode m).v = s.v := rfl
@[simp] theorem State.setMode_i (m : Mode) : (s.setMode m).i = s.i := rfl
@[simp] theorem State.setMode_pc (m : Mode) : (s.setMode m).pc = s.pc := rfl
@[simp] theorem State.setMode_stack (m : Mode) : (s.setMode m).stack = s.stack := rfl
@[simp] theorem State.setMode_sp (m : Mode) : (s.setMode m).sp = s.sp := rfl
@[simp] theorem State.setMode_dt (m : Mode) : (s.setMode m).dt = s.dt := rfl
@[simp] theorem State.setMode_st (m : Mode) : (s.setMode m).st = s.st := rfl
@[simp] theorem State.setMode_keys (m : Mode) : (s.setMode m).keys = s.keys := rfl
@[simp] theorem State.setMode_mode (m : Mode) : (s.setMode m).mode = m := rfl
@[simp] theorem State.setMode_fb (m : Mode) : (s.setMode m).fb = s.fb := rfl
@[simp] theorem State.setMode_cfg (m : Mode) : (s.setMode m).cfg = s.cfg := rfl
@[simp] theorem State.setMode_draws (m : Mode) : (s.setMode m).draws = s.draws := rfl
@[simp] theorem State.setMode_getV (m : Mode) (q : Reg) : (s.setMode m).getV q = s.getV q := rfl
@[simp] theorem State.setMode_getKey (m : Mode) (q : Key) : (s.setMode m).getKey q = s.getKey q := rfl
@[simp] theorem State.setMode_pixel (m : Mode) (y : Fin 32) (q : Fin 64) : (s.setMode m).pixel y q = s.pixel y q := rfl
@[simp] theorem State.setMode_readByte (m : Mode) (q : Nat) : (s.setMode m).readByte q = s.readByte q := rfl
@[simp] theorem State.setMode_base (m : Mode) : (s.setMode m).base = s.base := rfl
@[simp] theorem State.setMode_background (m : Mode) : (s.setMode m).background = s.background := rfl

/-! ### `State.setFb` -/

@[simp] theorem State.setFb_mem (f : FrameBuffer) : (s.setFb f).mem = s.mem := rfl
@[simp] theorem State.setFb_v (f : FrameBuffer) : (s.setFb f).v = s.v := rfl
@[simp] theorem State.setFb_i (f : FrameBuffer) : (s.setFb f).i = s.i := rfl
@[simp] theorem State.setFb_pc (f : FrameBuffer) : (s.setFb f).pc = s.pc := rfl
@[simp] theorem State.setFb_stack (f : FrameBuffer) : (s.setFb f).stack = s.stack := rfl
@[simp] theorem State.setFb_sp (f : FrameBuffer) : (s.setFb f).sp = s.sp := rfl
@[simp] theorem State.setFb_dt (f : FrameBuffer) : (s.setFb f).dt = s.dt := rfl
@[simp] theorem State.setFb_st (f : FrameBuffer) : (s.setFb f).st = s.st := rfl
@[simp] theorem State.setFb_keys (f : FrameBuffer) : (s.setFb f).keys = s.keys := rfl
@[simp] theorem State.setFb_mode (f : FrameBuffer) : (s.setFb f).mode = s.mode := rfl
@[simp] theorem State.setFb_fb (f : FrameBuffer) : (s.setFb f).fb = f := rfl
@[simp] theorem State.setFb_cfg (f : FrameBuffer) : (s.setFb f).cfg = s.cfg := rfl
@[simp] theorem State.setFb_draws (f : FrameBuffer) : (s.setFb f).draws = s.draws := rfl
@[simp] theorem State.setFb_getV (f : FrameBuffer) (q : Reg) : (s.setFb f).getV q = s.getV q := rfl
@[simp] theorem State.setFb_getKey (f : FrameBuffer) (q : Key) : (s.setFb f).getKey q = s.getKey q := rfl
@[simp] theorem State.setFb_readByte (f : FrameBuffer) (q : Nat) : (s.setFb f).readByte q = s.readByte q := rfl
@[simp] theorem State.setFb_base (f : FrameBuffer) : (s.setFb f).base = s.base := rfl
@[simp] theorem State.setFb_background (f : FrameBuffer) : (s.setFb f).background = s.background := rfl

/-! ### `State.setKey` -/

@[simp] theorem State.setKey_mem (k : Key) (p : Bool) : (s.setKey k p).mem = s.mem := rfl
@[simp] theorem State.setKey_v (k : Key) (p : Bool) : (s.setKey k p).v = s.v := rfl
@[simp] theorem State.setKey_i (k : Key) (p : Bool) : (s.setKey k p).i = s.i := rfl
@[simp] theorem State.setKey_pc (k : Key) (p : Bool) : (s.setKey k p).pc = s.pc := rfl
@[simp] theorem State.setKey_stack (k : Key) (p : Bool) : (s.setKey k p).stack = s.stack := rfl
@[simp] theorem State.setKey_sp (k : Key) (p : Bool) : (s.setKey k p).sp = s.sp := rfl
@[simp] theorem State.setKey_dt (k : Key) (p : Bool) : (s.setKey k p).dt = s.dt := rfl
@[simp] theorem State.setKey_st (k : Key) (p : Bool) : (s.setKey k p).st = s.st := rfl
@[simp] theorem State.setKey_keys (k : Key) (p : Bool) : (s.setKey k p).keys = s.keys.set k.val p k.isLt := rfl
@[simp] theorem State.setKey_mode (k : Key) (p : Bool) : (s.setKey k p).mode = s.mode := rfl
@[simp] theorem State.setKey_fb (k : Key) (p : Bool) : (s.setKey k p).fb = s.fb := rfl
@[simp] theorem State.setKey_cfg (k : Key) (p : Bool) : (s.setKey k p).cfg = s.cfg := rfl
@[simp] theorem State.setKey_draws (k : Key) (p : Bool) : (s.setKey k p).draws = s.draws := rfl
@[simp] theorem State.setKey_getV (k : Key) (p : Bool) (q : Reg) : (s.setKey k p).getV q = s.getV q := rfl
@[simp] theorem State.setKey_pixel (k : Key) (p : Bool) (y : Fin 32) (q : Fin 64) : (s.setKey k p).pixel y q = s.pixel y q := rfl
@[simp] theorem State.setKey_readByte (k : Key) (p : Bool) (q : Nat) : (s.setKey k p).readByte q = s.readByte q := rfl
@[simp] theorem State.setKey_base (k : Key) (p : Bool) : (s.setKey k p).base = s.base := rfl
@[simp] theorem State.setKey_background (k : Key) (p : Bool) : (s.setKey k p).background = s.background := rfl

/-! ### `State.writeByte` -/

@[simp] theorem State.writeByte_mem (a : Nat) (b : Byte) : (s.writeByte a b).mem = s.mem.write s.background a b := rfl
@[simp] theorem State.writeByte_v (a : Nat) (b : Byte) : (s.writeByte a b).v = s.v := rfl
@[simp] theorem State.writeByte_i (a : Nat) (b : Byte) : (s.writeByte a b).i = s.i := rfl
@[simp] theorem State.writeByte_pc (a : Nat) (b : Byte) : (s.writeByte a b).pc = s.pc := rfl
@[simp] theorem State.writeByte_stack (a : Nat) (b : Byte) : (s.writeByte a b).stack = s.stack := rfl
@[simp] theorem State.writeByte_sp (a : Nat) (b : Byte) : (s.writeByte a b).sp = s.sp := rfl
@[simp] theorem State.writeByte_dt (a : Nat) (b : Byte) : (s.writeByte a b).dt = s.dt := rfl
@[simp] theorem State.writeByte_st (a : Nat) (b : Byte) : (s.writeByte a b).st = s.st := rfl
@[simp] theorem State.writeByte_keys (a : Nat) (b : Byte) : (s.writeByte a b).keys = s.keys := rfl
@[simp] theorem State.writeByte_mode (a : Nat) (b : Byte) : (s.writeByte a b).mode = s.mode := rfl
@[simp] theorem State.writeByte_fb (a : Nat) (b : Byte) : (s.writeByte a b).fb = s.fb := rfl
@[simp] theorem State.writeByte_cfg (a : Nat) (b : Byte) : (s.writeByte a b).cfg = s.cfg := rfl
@[simp] theorem State.writeByte_draws (a : Nat) (b : Byte) : (s.writeByte a b).draws = s.draws := rfl
@[simp] theorem State.writeByte_getV (a : Nat) (b : Byte) (q : Reg) : (s.writeByte a b).getV q = s.getV q := rfl
@[simp] theorem State.writeByte_getKey (a : Nat) (b : Byte) (q : Key) : (s.writeByte a b).getKey q = s.getKey q := rfl
@[simp] theorem State.writeByte_pixel (a : Nat) (b : Byte) (y : Fin 32) (q : Fin 64) : (s.writeByte a b).pixel y q = s.pixel y q := rfl
@[simp] theorem State.writeByte_base (a : Nat) (b : Byte) : (s.writeByte a b).base = s.base := rfl
@[simp] theorem State.writeByte_background (a : Nat) (b : Byte) : (s.writeByte a b).background = s.background := rfl

/-! ### `State.writeBytes` -/

@[simp] theorem State.writeBytes_mem (a : Nat) (bs : List Byte) : (s.writeBytes a bs).mem = s.mem.writeBytes s.background a bs := rfl
@[simp] theorem State.writeBytes_v (a : Nat) (bs : List Byte) : (s.writeBytes a bs).v = s.v := rfl
@[simp] theorem State.writeBytes_i (a : Nat) (bs : List Byte) : (s.writeBytes a bs).i = s.i := rfl
@[simp] theorem State.writeBytes_pc (a : Nat) (bs : List Byte) : (s.writeBytes a bs).pc = s.pc := rfl
@[simp] theorem State.writeBytes_stack (a : Nat) (bs : List Byte) : (s.writeBytes a bs).stack = s.stack := rfl
@[simp] theorem State.writeBytes_sp (a : Nat) (bs : List Byte) : (s.writeBytes a bs).sp = s.sp := rfl
@[simp] theorem State.writeBytes_dt (a : Nat) (bs : List Byte) : (s.writeBytes a bs).dt = s.dt := rfl
@[simp] theorem State.writeBytes_st (a : Nat) (bs : List Byte) : (s.writeBytes a bs).st = s.st := rfl
@[simp] theorem State.writeBytes_keys (a : Nat) (bs : List Byte) : (s.writeBytes a bs).keys = s.keys := rfl
@[simp] theorem State.writeBytes_mode (a : Nat) (bs : List Byte) : (s.writeBytes a bs).mode = s.mode := rfl
@[simp] theorem State.writeBytes_fb (a : Nat) (bs : List Byte) : (s.writeBytes a bs).fb = s.fb := rfl
@[simp] theorem State.writeBytes_cfg (a : Nat) (bs : List Byte) : (s.writeBytes a bs).cfg = s.cfg := rfl
@[simp] theorem State.writeBytes_draws (a : Nat) (bs : List Byte) : (s.writeBytes a bs).draws = s.draws := rfl
@[simp] theorem State.writeBytes_getV (a : Nat) (bs : List Byte) (q : Reg) : (s.writeBytes a bs).getV q = s.getV q := rfl
@[simp] theorem State.writeBytes_getKey (a : Nat) (bs : List Byte) (q : Key) : (s.writeBytes a bs).getKey q = s.getKey q := rfl
@[simp] theorem State.writeBytes_pixel (a : Nat) (bs : List Byte) (y : Fin 32) (q : Fin 64) : (s.writeBytes a bs).pixel y q = s.pixel y q := rfl
@[simp] theorem State.writeBytes_base (a : Nat) (bs : List Byte) : (s.writeBytes a bs).base = s.base := rfl
@[simp] theorem State.writeBytes_background (a : Nat) (bs : List Byte) : (s.writeBytes a bs).background = s.background := rfl

/-! ### `State.loadV` -/

@[simp] theorem State.loadV_mem (x : Reg) (a : Nat) : (s.loadV x a).mem = s.mem := rfl
@[simp] theorem State.loadV_i (x : Reg) (a : Nat) : (s.loadV x a).i = s.i := rfl
@[simp] theorem State.loadV_pc (x : Reg) (a : Nat) : (s.loadV x a).pc = s.pc := rfl
@[simp] theorem State.loadV_stack (x : Reg) (a : Nat) : (s.loadV x a).stack = s.stack := rfl
@[simp] theorem State.loadV_sp (x : Reg) (a : Nat) : (s.loadV x a).sp = s.sp := rfl
@[simp] theorem State.loadV_dt (x : Reg) (a : Nat) : (s.loadV x a).dt = s.dt := rfl
@[simp] theorem State.loadV_st (x : Reg) (a : Nat) : (s.loadV x a).st = s.st := rfl
@[simp] theorem State.loadV_keys (x : Reg) (a : Nat) : (s.loadV x a).keys = s.keys := rfl
@[simp] theorem State.loadV_mode (x : Reg) (a : Nat) : (s.loadV x a).mode = s.mode := rfl
@[simp] theorem State.loadV_fb (x : Reg) (a : Nat) : (s.loadV x a).fb = s.fb := rfl
@[simp] theorem State.loadV_cfg (x : Reg) (a : Nat) : (s.loadV x a).cfg = s.cfg := rfl
@[simp] theorem State.loadV_draws (x : Reg) (a : Nat) : (s.loadV x a).draws = s.draws := rfl
@[simp] theorem State.loadV_getKey (x : Reg) (a : Nat) (q : Key) : (s.loadV x a).getKey q = s.getKey q := rfl
@[simp] theorem State.loadV_pixel (x : Reg) (a : Nat) (y : Fin 32) (q : Fin 64) : (s.loadV x a).pixel y q = s.pixel y q := rfl
@[simp] theorem State.loadV_readByte (x : Reg) (a : Nat) (q : Nat) : (s.loadV x a).readByte q = s.readByte q := rfl
@[simp] theorem State.loadV_base (x : Reg) (a : Nat) : (s.loadV x a).base = s.base := rfl
@[simp] theorem State.loadV_background (x : Reg) (a : Nat) : (s.loadV x a).background = s.background := rfl

/-! ### `State.bumpDraws` -/

@[simp] theorem State.bumpDraws_mem : (s.bumpDraws).mem = s.mem := rfl
@[simp] theorem State.bumpDraws_v : (s.bumpDraws).v = s.v := rfl
@[simp] theorem State.bumpDraws_i : (s.bumpDraws).i = s.i := rfl
@[simp] theorem State.bumpDraws_pc : (s.bumpDraws).pc = s.pc := rfl
@[simp] theorem State.bumpDraws_stack : (s.bumpDraws).stack = s.stack := rfl
@[simp] theorem State.bumpDraws_sp : (s.bumpDraws).sp = s.sp := rfl
@[simp] theorem State.bumpDraws_dt : (s.bumpDraws).dt = s.dt := rfl
@[simp] theorem State.bumpDraws_st : (s.bumpDraws).st = s.st := rfl
@[simp] theorem State.bumpDraws_keys : (s.bumpDraws).keys = s.keys := rfl
@[simp] theorem State.bumpDraws_mode : (s.bumpDraws).mode = s.mode := rfl
@[simp] theorem State.bumpDraws_fb : (s.bumpDraws).fb = s.fb := rfl
@[simp] theorem State.bumpDraws_cfg : (s.bumpDraws).cfg = s.cfg := rfl
@[simp] theorem State.bumpDraws_draws : (s.bumpDraws).draws = s.draws + 1 := rfl
@[simp] theorem State.bumpDraws_getV (q : Reg) : (s.bumpDraws).getV q = s.getV q := rfl
@[simp] theorem State.bumpDraws_getKey (q : Key) : (s.bumpDraws).getKey q = s.getKey q := rfl
@[simp] theorem State.bumpDraws_pixel (y : Fin 32) (q : Fin 64) : (s.bumpDraws).pixel y q = s.pixel y q := rfl
@[simp] theorem State.bumpDraws_readByte (q : Nat) : (s.bumpDraws).readByte q = s.readByte q := rfl
@[simp] theorem State.bumpDraws_base : (s.bumpDraws).base = s.base := rfl
@[simp] theorem State.bumpDraws_background : (s.bumpDraws).background = s.background := rfl

/-! ### `State.advancePc` -/

@[simp] theorem State.advancePc_mem : (s.advancePc).mem = s.mem := rfl
@[simp] theorem State.advancePc_v : (s.advancePc).v = s.v := rfl
@[simp] theorem State.advancePc_i : (s.advancePc).i = s.i := rfl
@[simp] theorem State.advancePc_pc : (s.advancePc).pc = s.pc + 2 := rfl
@[simp] theorem State.advancePc_stack : (s.advancePc).stack = s.stack := rfl
@[simp] theorem State.advancePc_sp : (s.advancePc).sp = s.sp := rfl
@[simp] theorem State.advancePc_dt : (s.advancePc).dt = s.dt := rfl
@[simp] theorem State.advancePc_st : (s.advancePc).st = s.st := rfl
@[simp] theorem State.advancePc_keys : (s.advancePc).keys = s.keys := rfl
@[simp] theorem State.advancePc_mode : (s.advancePc).mode = s.mode := rfl
@[simp] theorem State.advancePc_fb : (s.advancePc).fb = s.fb := rfl
@[simp] theorem State.advancePc_cfg : (s.advancePc).cfg = s.cfg := rfl
@[simp] theorem State.advancePc_draws : (s.advancePc).draws = s.draws := rfl
@[simp] theorem State.advancePc_getV (q : Reg) : (s.advancePc).getV q = s.getV q := rfl
@[simp] theorem State.advancePc_getKey (q : Key) : (s.advancePc).getKey q = s.getKey q := rfl
@[simp] theorem State.advancePc_pixel (y : Fin 32) (q : Fin 64) : (s.advancePc).pixel y q = s.pixel y q := rfl
@[simp] theorem State.advancePc_readByte (q : Nat) : (s.advancePc).readByte q = s.readByte q := rfl
@[simp] theorem State.advancePc_base : (s.advancePc).base = s.base := rfl
@[simp] theorem State.advancePc_background : (s.advancePc).background = s.background := rfl

/-! ### `State.setFlag` -/

@[simp] theorem State.setFlag_mem (c : Bool) : (s.setFlag c).mem = s.mem := rfl
@[simp] theorem State.setFlag_i (c : Bool) : (s.setFlag c).i = s.i := rfl
@[simp] theorem State.setFlag_pc (c : Bool) : (s.setFlag c).pc = s.pc := rfl
@[simp] theorem State.setFlag_stack (c : Bool) : (s.setFlag c).stack = s.stack := rfl
@[simp] theorem State.setFlag_sp (c : Bool) : (s.setFlag c).sp = s.sp := rfl
@[simp] theorem State.setFlag_dt (c : Bool) : (s.setFlag c).dt = s.dt := rfl
@[simp] theorem State.setFlag_st (c : Bool) : (s.setFlag c).st = s.st := rfl
@[simp] theorem State.setFlag_keys (c : Bool) : (s.setFlag c).keys = s.keys := rfl
@[simp] theorem State.setFlag_mode (c : Bool) : (s.setFlag c).mode = s.mode := rfl
@[simp] theorem State.setFlag_fb (c : Bool) : (s.setFlag c).fb = s.fb := rfl
@[simp] theorem State.setFlag_cfg (c : Bool) : (s.setFlag c).cfg = s.cfg := rfl
@[simp] theorem State.setFlag_draws (c : Bool) : (s.setFlag c).draws = s.draws := rfl
@[simp] theorem State.setFlag_getKey (c : Bool) (q : Key) : (s.setFlag c).getKey q = s.getKey q := rfl
@[simp] theorem State.setFlag_pixel (c : Bool) (y : Fin 32) (q : Fin 64) : (s.setFlag c).pixel y q = s.pixel y q := rfl
@[simp] theorem State.setFlag_readByte (c : Bool) (q : Nat) : (s.setFlag c).readByte q = s.readByte q := rfl
@[simp] theorem State.setFlag_base (c : Bool) : (s.setFlag c).base = s.base := rfl
@[simp] theorem State.setFlag_background (c : Bool) : (s.setFlag c).background = s.background := rfl

/-! ### `State.setResultFlag` -/

@[simp] theorem State.setResultFlag_mem (x : Reg) (b : Byte) (c : Bool) : (s.setResultFlag x b c).mem = s.mem := rfl
@[simp] theorem State.setResultFlag_i (x : Reg) (b : Byte) (c : Bool) : (s.setResultFlag x b c).i = s.i := rfl
@[simp] theorem State.setResultFlag_pc (x : Reg) (b : Byte) (c : Bool) : (s.setResultFlag x b c).pc = s.pc := rfl
@[simp] theorem State.setResultFlag_stack (x : Reg) (b : Byte) (c : Bool) : (s.setResultFlag x b c).stack = s.stack := rfl
@[simp] theorem State.setResultFlag_sp (x : Reg) (b : Byte) (c : Bool) : (s.setResultFlag x b c).sp = s.sp := rfl
@[simp] theorem State.setResultFlag_dt (x : Reg) (b : Byte) (c : Bool) : (s.setResultFlag x b c).dt = s.dt := rfl
@[simp] theorem State.setResultFlag_st (x : Reg) (b : Byte) (c : Bool) : (s.setResultFlag x b c).st = s.st := rfl
@[simp] theorem State.setResultFlag_keys (x : Reg) (b : Byte) (c : Bool) : (s.setResultFlag x b c).keys = s.keys := rfl
@[simp] theorem State.setResultFlag_mode (x : Reg) (b : Byte) (c : Bool) : (s.setResultFlag x b c).mode = s.mode := rfl
@[simp] theorem State.setResultFlag_fb (x : Reg) (b : Byte) (c : Bool) : (s.setResultFlag x b c).fb = s.fb := rfl
@[simp] theorem State.setResultFlag_cfg (x : Reg) (b : Byte) (c : Bool) : (s.setResultFlag x b c).cfg = s.cfg := rfl
@[simp] theorem State.setResultFlag_draws (x : Reg) (b : Byte) (c : Bool) : (s.setResultFlag x b c).draws = s.draws := rfl
@[simp] theorem State.setResultFlag_getKey (x : Reg) (b : Byte) (c : Bool) (q : Key) : (s.setResultFlag x b c).getKey q = s.getKey q := rfl
@[simp] theorem State.setResultFlag_pixel (x : Reg) (b : Byte) (c : Bool) (y : Fin 32) (q : Fin 64) : (s.setResultFlag x b c).pixel y q = s.pixel y q := rfl
@[simp] theorem State.setResultFlag_readByte (x : Reg) (b : Byte) (c : Bool) (q : Nat) : (s.setResultFlag x b c).readByte q = s.readByte q := rfl
@[simp] theorem State.setResultFlag_base (x : Reg) (b : Byte) (c : Bool) : (s.setResultFlag x b c).base = s.base := rfl
@[simp] theorem State.setResultFlag_background (x : Reg) (b : Byte) (c : Bool) : (s.setResultFlag x b c).background = s.background := rfl

/-! ### `State.skipIf` and `postIncrement` -/

@[simp] theorem State.skipIf_mem (c : Bool) : (s.skipIf c).mem = s.mem := by unfold State.skipIf; split <;> rfl
@[simp] theorem State.skipIf_v (c : Bool) : (s.skipIf c).v = s.v := by unfold State.skipIf; split <;> rfl
@[simp] theorem State.skipIf_i (c : Bool) : (s.skipIf c).i = s.i := by unfold State.skipIf; split <;> rfl
@[simp] theorem State.skipIf_stack (c : Bool) : (s.skipIf c).stack = s.stack := by unfold State.skipIf; split <;> rfl
@[simp] theorem State.skipIf_sp (c : Bool) : (s.skipIf c).sp = s.sp := by unfold State.skipIf; split <;> rfl
@[simp] theorem State.skipIf_dt (c : Bool) : (s.skipIf c).dt = s.dt := by unfold State.skipIf; split <;> rfl
@[simp] theorem State.skipIf_st (c : Bool) : (s.skipIf c).st = s.st := by unfold State.skipIf; split <;> rfl
@[simp] theorem State.skipIf_keys (c : Bool) : (s.skipIf c).keys = s.keys := by unfold State.skipIf; split <;> rfl
@[simp] theorem State.skipIf_mode (c : Bool) : (s.skipIf c).mode = s.mode := by unfold State.skipIf; split <;> rfl
@[simp] theorem State.skipIf_fb (c : Bool) : (s.skipIf c).fb = s.fb := by unfold State.skipIf; split <;> rfl
@[simp] theorem State.skipIf_cfg (c : Bool) : (s.skipIf c).cfg = s.cfg := by unfold State.skipIf; split <;> rfl
@[simp] theorem State.skipIf_draws (c : Bool) : (s.skipIf c).draws = s.draws := by unfold State.skipIf; split <;> rfl
@[simp] theorem State.skipIf_getV (c : Bool) (q : Reg) : (s.skipIf c).getV q = s.getV q := by unfold State.skipIf; split <;> rfl
@[simp] theorem State.skipIf_getKey (c : Bool) (q : Key) : (s.skipIf c).getKey q = s.getKey q := by unfold State.skipIf; split <;> rfl
@[simp] theorem State.skipIf_pixel (c : Bool) (y : Fin 32) (q : Fin 64) : (s.skipIf c).pixel y q = s.pixel y q := by unfold State.skipIf; split <;> rfl
@[simp] theorem State.skipIf_readByte (c : Bool) (q : Nat) : (s.skipIf c).readByte q = s.readByte q := by unfold State.skipIf; split <;> rfl
@[simp] theorem State.skipIf_background (c : Bool) : (s.skipIf c).background = s.background := by unfold State.skipIf; split <;> rfl
@[simp] theorem postIncrement_mem (x : Reg) : (postIncrement s x).mem = s.mem := by unfold postIncrement; split <;> rfl
@[simp] theorem postIncrement_v (x : Reg) : (postIncrement s x).v = s.v := by unfold postIncrement; split <;> rfl
@[simp] theorem postIncrement_pc (x : Reg) : (postIncrement s x).pc = s.pc := by unfold postIncrement; split <;> rfl
@[simp] theorem postIncrement_stack (x : Reg) : (postIncrement s x).stack = s.stack := by unfold postIncrement; split <;> rfl
@[simp] theorem postIncrement_sp (x : Reg) : (postIncrement s x).sp = s.sp := by unfold postIncrement; split <;> rfl
@[simp] theorem postIncrement_dt (x : Reg) : (postIncrement s x).dt = s.dt := by unfold postIncrement; split <;> rfl
@[simp] theorem postIncrement_st (x : Reg) : (postIncrement s x).st = s.st := by unfold postIncrement; split <;> rfl
@[simp] theorem postIncrement_keys (x : Reg) : (postIncrement s x).keys = s.keys := by unfold postIncrement; split <;> rfl
@[simp] theorem postIncrement_mode (x : Reg) : (postIncrement s x).mode = s.mode := by unfold postIncrement; split <;> rfl
@[simp] theorem postIncrement_fb (x : Reg) : (postIncrement s x).fb = s.fb := by unfold postIncrement; split <;> rfl
@[simp] theorem postIncrement_cfg (x : Reg) : (postIncrement s x).cfg = s.cfg := by unfold postIncrement; split <;> rfl
@[simp] theorem postIncrement_draws (x : Reg) : (postIncrement s x).draws = s.draws := by unfold postIncrement; split <;> rfl
@[simp] theorem postIncrement_getV (x : Reg) (q : Reg) : (postIncrement s x).getV q = s.getV q := by unfold postIncrement; split <;> rfl
@[simp] theorem postIncrement_getKey (x : Reg) (q : Key) : (postIncrement s x).getKey q = s.getKey q := by unfold postIncrement; split <;> rfl
@[simp] theorem postIncrement_pixel (x : Reg) (y : Fin 32) (q : Fin 64) : (postIncrement s x).pixel y q = s.pixel y q := by unfold postIncrement; split <;> rfl
@[simp] theorem postIncrement_readByte (x : Reg) (q : Nat) : (postIncrement s x).readByte q = s.readByte q := by unfold postIncrement; split <;> rfl
@[simp] theorem postIncrement_background (x : Reg) : (postIncrement s x).background = s.background := by unfold postIncrement; split <;> rfl
@[simp] theorem State.skipIf_pc (c : Bool) : (s.skipIf c).pc = if c then s.pc + 2 else s.pc := by
  unfold State.skipIf; split <;> rfl
@[simp] theorem postIncrement_i (x : Reg) :
    (postIncrement s x).i = if s.cfg.q.memoryIncrement then s.i + BitVec.ofNat 16 (x.val + 1) else s.i := by
  unfold postIncrement; split <;> rfl

/-! ### Reading what an update wrote -/

@[simp] theorem State.setV_getV (r : Reg) (b : Byte) (q : Reg) :
    (s.setV r b).getV q = if q = r then b else s.getV q := by
  simp only [State.getV, State.setV, Vector.get_eq_getElem, Vector.getElem_set, Fin.ext_iff]
  split <;> split <;> simp_all

@[simp] theorem State.setKey_getKey (k : Key) (p : Bool) (q : Key) :
    (s.setKey k p).getKey q = if q = k then p else s.getKey q := by
  simp only [State.getKey, State.setKey, Vector.get_eq_getElem, Vector.getElem_set, Fin.ext_iff]
  split <;> split <;> simp_all

@[simp] theorem State.loadV_getV (x : Reg) (a : Nat) (q : Reg) :
    (s.loadV x a).getV q = if q ≤ x then s.readByte (a + q.val) else s.getV q := by
  simp [State.getV, State.loadV, Vector.get_eq_getElem]

@[simp] theorem State.setFlag_getV (c : Bool) (q : Reg) :
    (s.setFlag c).getV q = if q = vf then flagByte c else s.getV q := by
  simp [State.setFlag]

@[simp] theorem State.setResultFlag_getV (x : Reg) (b : Byte) (c : Bool) (q : Reg) :
    (s.setResultFlag x b c).getV q = if q = vf then flagByte c else if q = x then b else s.getV q := by
  simp [State.setResultFlag]

end Sys2Proof.Machine
end

