-- ==== Sys2Proof/Laws/Memory.lean ====
section
/-! SUPPORT. Memory: what a read answers after a write, and that every memory operation keeps the canonical form. -/

namespace Sys2Proof.Machine

theorem memSize_eq : memSize = 4096 := rfl

variable {bg : Nat → Byte}

/-! ### Reading -/

@[simp] theorem Memory.read_nil (a : Nat) : Memory.read bg [] a = bg a := rfl

theorem Memory.read_cons (k : Nat) (c : Byte) (m : Memory) (a : Nat) :
    Memory.read bg ((k, c) :: m) a = if a = k then c else Memory.read bg m a := rfl

/-- An address below every listed one reads as unlisted. -/
theorem Memory.read_of_lt {m : Memory} {a : Nat} (h : ∀ c ∈ m, a < c.1) : Memory.read bg m a = bg a := by
  induction m with
  | nil => rfl
  | cons c m ih =>
    obtain ⟨k, b⟩ := c
    have hk : a < k := h (k, b) (by simp)
    rw [Memory.read_cons, if_neg (by omega)]
    exact ih fun c hc => h c (by simp [hc])

/-- Read after write (R62, R67). Only the order of the addresses is needed. -/
theorem Memory.read_write {m : Memory} (hm : m.Pairwise (fun c d => c.1 < d.1)) (a : Nat) (b : Byte) (q : Nat) :
    Memory.read bg (Memory.write bg m a b) q = if q = a then b else Memory.read bg m q := by
  induction m with
  | nil =>
    by_cases hb : b = bg a
    · subst hb; by_cases hq : q = a <;> simp [Memory.write, hq]
    · simp [Memory.write, hb, Memory.read_cons]
  | cons c m ih =>
    obtain ⟨k, c⟩ := c
    obtain ⟨hk, hm⟩ := List.pairwise_cons.mp hm
    have below : ∀ p, p ≤ k → Memory.read bg m p = bg p := fun p hp =>
      Memory.read_of_lt fun d hd => lt_of_le_of_lt hp (hk d hd)
    unfold Memory.write
    split
    · rename_i hak
      split
      · rename_i hb
        by_cases hq : q = a
        · rw [if_pos hq, hq, Memory.read_cons, if_neg (by omega), below a (by omega), hb]
        · rw [if_neg hq]
      · rw [Memory.read_cons]
    · split
      · rename_i hak
        subst hak
        split
        · rename_i hb
          by_cases hq : q = a
          · rw [if_pos hq, hq, below a le_rfl, hb]
          · rw [if_neg hq, Memory.read_cons, if_neg hq]
        · by_cases hq : q = a <;> simp [Memory.read_cons, hq]
      · rename_i hak hne
        rw [Memory.read_cons, Memory.read_cons, ih hm]
        by_cases hq : q = k
        · rw [if_pos hq, if_neg (by omega), if_pos hq]
        · simp [hq]

/-! ### The canonical form -/

/-- Every entry after a write is an old one or the written one, which is then not what its address reads as anyway. -/
theorem Memory.mem_write {m : Memory} {a : Nat} {b : Byte} {c : Host.Cell} (h : c ∈ Memory.write bg m a b) :
    c ∈ m ∨ (c = (a, b) ∧ b ≠ bg a) := by
  induction m with
  | nil =>
    unfold Memory.write at h
    split at h <;> simp_all
  | cons d m ih =>
    obtain ⟨k, d⟩ := d
    unfold Memory.write at h
    split at h
    · split at h
      · exact .inl h
      · rcases List.mem_cons.mp h with h | h
        · exact .inr ⟨h, ‹_›⟩
        · exact .inl h
    · split at h
      · split at h
        · exact .inl (List.mem_cons_of_mem _ h)
        · rcases List.mem_cons.mp h with h | h
          · exact .inr ⟨h, ‹_›⟩
          · exact .inl (List.mem_cons_of_mem _ h)
      · rcases List.mem_cons.mp h with h | h
        · exact .inl (by simp [h])
        · rcases ih h with h | h
          · exact .inl (List.mem_cons_of_mem _ h)
          · exact .inr h

theorem Memory.pairwise_write {m : Memory} (hm : m.Pairwise (fun c d => c.1 < d.1)) (a : Nat) (b : Byte) :
    (Memory.write bg m a b).Pairwise (fun c d => c.1 < d.1) := by
  induction m with
  | nil => unfold Memory.write; split <;> simp
  | cons d m ih =>
    obtain ⟨k, d⟩ := d
    obtain ⟨hk, hm'⟩ := List.pairwise_cons.mp hm
    unfold Memory.write
    split
    · split
      · exact hm
      · refine List.pairwise_cons.mpr ⟨fun c hc => ?_, hm⟩
        rcases List.mem_cons.mp hc with h | h
        · simp [h]; omega
        · exact lt_trans ‹a < k› (hk c h)
    · split
      · split
        · exact hm'
        · exact List.pairwise_cons.mpr ⟨fun c hc => by rename_i h _; exact h ▸ hk c hc, hm'⟩
      · refine List.pairwise_cons.mpr ⟨fun c hc => ?_, ih hm'⟩
        rcases Memory.mem_write hc with h | ⟨h, _⟩
        · exact hk c h
        · simp [h]; omega

/-- A write inside memory keeps the canonical form. -/
theorem Memory.wf_write {m : Memory} (hm : Memory.wf bg m) {a : Nat} (ha : a < memSize) (b : Byte) :
    Memory.wf bg (Memory.write bg m a b) := by
  refine ⟨Memory.pairwise_write hm.1 a b, fun c hc => ?_⟩
  rcases Memory.mem_write hc with h | ⟨h, hb⟩
  · exact hm.2 c h
  · subst h; exact ⟨ha, hb⟩

theorem Memory.wf_nil : Memory.wf bg [] := ⟨List.Pairwise.nil, fun _ h => nomatch h⟩

/-! ### Byte sequences -/

theorem Memory.wf_writeBytes {m : Memory} (hm : Memory.wf bg m) (a : Nat) (bs : List Byte)
    (h : a + bs.length ≤ memSize) : Memory.wf bg (Memory.writeBytes bg m a bs) := by
  induction bs generalizing m a with
  | nil => exact hm
  | cons b bs ih =>
    rw [List.length_cons] at h
    exact ih (Memory.wf_write hm (by omega) b) (a + 1) (by omega)

theorem Memory.read_writeBytes {m : Memory} (hm : m.Pairwise (fun c d => c.1 < d.1)) (a : Nat) (bs : List Byte)
    (q : Nat) :
    Memory.read bg (Memory.writeBytes bg m a bs) q =
      if h : a ≤ q ∧ q < a + bs.length then bs[q - a]'(by omega) else Memory.read bg m q := by
  induction bs generalizing m a with
  | nil => rw [dif_neg (by simp)]; rfl
  | cons b bs ih =>
    rw [Memory.writeBytes, ih (Memory.pairwise_write hm a b), Memory.read_write hm]
    rcases Nat.lt_trichotomy q a with h | h | h
    · rw [dif_neg (by omega), dif_neg (by omega), if_neg (by omega)]
    · subst h
      rw [dif_neg (by omega), if_pos rfl, dif_pos (by simp)]
      simp
    · by_cases h2 : q < a + 1 + bs.length
      · rw [dif_pos (by omega), dif_pos (by simp; omega)]
        rw [List.getElem_cons, dif_neg (by omega)]
        congr 1
      · rw [dif_neg (by omega), if_neg (by omega), dif_neg (by simp; omega)]

theorem Memory.mem_image {a : Nat} {bs : List Byte} {c : Host.Cell} (h : c ∈ Memory.image bg a bs) :
    a ≤ c.1 ∧ c.1 < a + bs.length ∧ c.2 ≠ bg c.1 := by
  induction bs generalizing a with
  | nil => simp [Memory.image] at h
  | cons b bs ih =>
    unfold Memory.image at h
    rw [List.length_cons]
    split at h
    · have := ih h; exact ⟨by omega, by omega, this.2.2⟩
    · rcases List.mem_cons.mp h with h | h
      · subst h; exact ⟨by simp, by simp, ‹_›⟩
      · have := ih h; exact ⟨by omega, by omega, this.2.2⟩

theorem Memory.wf_image {a : Nat} {bs : List Byte} (h : a + bs.length ≤ memSize) :
    Memory.wf bg (Memory.image bg a bs) := by
  refine ⟨?_, fun c hc => ⟨?_, (Memory.mem_image hc).2.2⟩⟩
  · clear h
    induction bs generalizing a with
    | nil => simp [Memory.image]
    | cons b bs ih =>
      unfold Memory.image
      split
      · exact ih
      · exact List.pairwise_cons.mpr ⟨fun c hc => by have := (Memory.mem_image hc).1; simp only []; omega, ih⟩
  · have := (Memory.mem_image hc).2.1; omega

/-- The image of a byte sequence reads as its bytes, and as the reset contents elsewhere. -/
theorem Memory.read_image (a : Nat) (bs : List Byte) (q : Nat) :
    Memory.read bg (Memory.image bg a bs) q =
      if h : a ≤ q ∧ q < a + bs.length then bs[q - a]'(by omega) else bg q := by
  induction bs generalizing a with
  | nil => rw [dif_neg (by simp)]; rfl
  | cons b bs ih =>
    have tail : q ≠ a → Memory.read bg (Memory.image bg (a + 1) bs) q =
        if h : a ≤ q ∧ q < a + (b :: bs).length then (b :: bs)[q - a]'(by omega) else bg q := by
      intro hq
      rw [ih (a + 1)]
      by_cases h : a + 1 ≤ q ∧ q < a + 1 + bs.length
      · rw [dif_pos h, dif_pos (by simp; omega), List.getElem_cons, dif_neg (by omega)]
        congr 1
      · rw [dif_neg h, dif_neg (by simp; omega)]
    have head : q = a → (if h : a ≤ q ∧ q < a + (b :: bs).length then (b :: bs)[q - a]'(by omega) else bg q) = b := by
      intro hq; subst hq; simp
    unfold Memory.image
    split
    · rename_i hb
      by_cases hq : q = a
      · rw [head hq, Memory.read_of_lt fun c hc => by have := (Memory.mem_image hc).1; omega, hq, hb]
      · exact tail hq
    · rw [Memory.read_cons]
      by_cases hq : q = a
      · rw [if_pos hq, head hq]
      · rw [if_neg hq, tail hq]

/-! ### Equal memories are equal data -/

/-- In a canonical list the head's address reads as its byte, which differs from the unlisted value. -/
theorem Memory.read_head {k : Nat} {c : Byte} {m : Memory} : Memory.read bg ((k, c) :: m) k = c := by
  rw [Memory.read_cons, if_pos rfl]

/-- Two canonical memories that read the same everywhere are the same list. -/
theorem Memory.ext_read {m n : Memory} (hm : Memory.wf bg m) (hn : Memory.wf bg n)
    (h : ∀ a, Memory.read bg m a = Memory.read bg n a) : m = n := by
  induction m generalizing n with
  | nil =>
    cases n with
    | nil => rfl
    | cons d n =>
      have := h d.1
      rw [Memory.read_nil, Memory.read_head] at this
      exact absurd this.symm (hn.2 d (by simp)).2
  | cons c m ih =>
    obtain ⟨k, c⟩ := c
    obtain ⟨hk, hm'⟩ := List.pairwise_cons.mp hm.1
    have hc := (hm.2 (k, c) (by simp)).2
    cases n with
    | nil =>
      have := h k
      rw [Memory.read_head, Memory.read_nil] at this
      exact absurd this hc
    | cons d n =>
      obtain ⟨l, d⟩ := d
      obtain ⟨hl, hn'⟩ := List.pairwise_cons.mp hn.1
      have hd := (hn.2 (l, d) (by simp)).2
      have above : ∀ {p : Memory} {q a : Nat}, (∀ e ∈ p, q < e.1) → a ≤ q → Memory.read bg p a = bg a :=
        fun hp ha => Memory.read_of_lt fun e he => lt_of_le_of_lt ha (hp e he)
      have hkl : k = l := by
        rcases Nat.lt_trichotomy k l with hlt | heq | hgt
        · have := h k
          rw [Memory.read_head, Memory.read_cons, if_neg (by omega), above hl (by omega)] at this
          exact absurd this hc
        · exact heq
        · have := h l
          rw [Memory.read_head, Memory.read_cons, if_neg (by omega), above hk (by omega)] at this
          exact absurd this.symm hd
      subst hkl
      have hcd : c = d := by have := h k; rwa [Memory.read_head, Memory.read_head] at this
      subst hcd
      congr 1
      refine ih ⟨hm', fun e he => hm.2 e (by simp [he])⟩ ⟨hn', fun e he => hn.2 e (by simp [he])⟩ fun a => ?_
      by_cases ha : a = k
      · rw [ha, above hk le_rfl, above hl le_rfl]
      · have := h a
        rwa [Memory.read_cons, Memory.read_cons, if_neg ha, if_neg ha] at this

/-! ### The memory of a state -/

/-- Read after write, on a state (R62, R67). -/
theorem State.writeByte_readByte {s : State} (h : s.mem.wf s.background) (a : Nat) (b : Byte) (q : Nat) :
    (s.writeByte a b).readByte q = if q = a then b else s.readByte q :=
  Memory.read_write h.1 a b q

theorem State.writeBytes_readByte {s : State} (h : s.mem.wf s.background) (a : Nat) (bs : List Byte) (q : Nat) :
    (s.writeBytes a bs).readByte q =
      if h : a ≤ q ∧ q < a + bs.length then bs[q - a]'(by omega) else s.readByte q :=
  Memory.read_writeBytes h.1 a bs q

theorem State.wf_writeByte {s : State} (h : s.mem.wf s.background) {a : Nat} (ha : a < memSize) (b : Byte) :
    (s.writeByte a b).mem.wf (s.writeByte a b).background :=
  Memory.wf_write h ha b

theorem State.wf_writeBytes {s : State} (h : s.mem.wf s.background) (a : Nat) (bs : List Byte)
    (ha : a + bs.length ≤ memSize) : (s.writeBytes a bs).mem.wf (s.writeBytes a bs).background :=
  Memory.wf_writeBytes h a bs ha

/-- What a constructed core's memory reads as (R37). -/
theorem State.new_readByte (cfg : CoreConfig) (a : Nat) : (State.new cfg).readByte a = resetByte cfg.font a := rfl

/-- What a loaded core's memory reads as (R301). -/
theorem State.loaded_readByte (s : State) (bytes : List Byte) (a : Nat) :
    (s.loaded bytes).readByte a =
      if h : 0x200 ≤ a ∧ a < 0x200 + bytes.length then bytes[a - 0x200]'(by omega) else resetByte s.cfg.font a :=
  Memory.read_image 0x200 bytes a

/-- Constructed and loaded memories have the canonical form. -/
theorem State.wf_loaded (s : State) {bytes : List Byte} (h : bytes.length ≤ 3584) :
    (s.loaded bytes).mem.wf (s.loaded bytes).background :=
  Memory.wf_image (by simp [progBase, memSize]; omega)

theorem reset_mem_wf : State.reset.mem.wf State.reset.background := Memory.wf_nil

end Sys2Proof.Machine
end

