-- ==== Sys2Proof/Laws/Ops.lean ====
section
/-! SUPPORT. What each shared operation can do, said once: the range check, the call stack, the framebuffer, the fetch and
the step. Later proofs cite these and do not unfold the operations. -/

namespace Sys2Proof.Machine

/-! ### The range check (R63, R176) -/

theorem inRange_iff (base n : Nat) : inRange base n = true ↔ n = 0 ∨ base + n ≤ 4096 := by
  unfold inRange memSize
  simp

theorem guardRange_of_inRange {base n : Nat} (h : n = 0 ∨ base + n ≤ 4096) (ok : Result) :
    guardRange base n ok = ok := by
  rw [guardRange, if_pos ((inRange_iff base n).mpr h)]

theorem guardRange_of_outside {base n : Nat} (h : n ≠ 0) (h2 : 4096 < base + n) (ok : Result) :
    guardRange base n ok = .fault (.memoryOutOfBounds (max base 4096)) := by
  rw [guardRange, if_neg (by rw [inRange_iff]; omega)]; rfl

/-- What a guarded effect can answer. -/
theorem guardRange_next {base n : Nat} {t u : State} (h : guardRange base n (.next t) = .next u) :
    (n = 0 ∨ base + n ≤ 4096) ∧ u = t := by
  unfold guardRange at h
  split at h
  · rename_i hr
    exact ⟨(inRange_iff base n).mp hr, by cases h; rfl⟩
  · cases h

theorem guardRange_ne_refused {base n : Nat} {t : State} (r : Refusal) : guardRange base n (.next t) ≠ .refused r := by
  unfold guardRange raise; split <;> simp

/-! ### The call stack (R26) -/

theorem State.push_full {s : State} (h : s.sp.val = 16) (a : Word) : s.push a = none := by
  rw [State.push, dif_neg (by omega)]

theorem State.push_of_lt {s : State} (h : s.sp.val < 16) (a : Word) :
    s.push a = some { s with stack := s.stack.set s.sp.val a h, sp := ⟨s.sp.val + 1, Nat.succ_lt_succ h⟩ } := by
  rw [State.push, dif_pos h]

theorem State.pop_empty {s : State} (h : s.sp.val = 0) : s.pop = none := by
  rw [State.pop, dif_pos h]

theorem State.pop_of_pos {s : State} (h : 0 < s.sp.val) :
    s.pop = some (s.stack.get ⟨s.sp.val - 1, by omega⟩, { s with sp := ⟨s.sp.val - 1, by omega⟩ }) := by
  rw [State.pop, dif_neg (by omega)]; rfl

/-! ### The framebuffer (R31) -/

theorem FrameBuffer.pixel_toggle (fb : FrameBuffer) (y : Fin 32) (x : Fin 64) (py : Fin 32) (px : Fin 64) :
    FrameBuffer.pixel (FrameBuffer.toggle fb y x) py px =
      if py = y ∧ px = x then !FrameBuffer.pixel fb py px else FrameBuffer.pixel fb py px := by
  simp only [FrameBuffer.pixel, FrameBuffer.toggle, Vector.get_eq_getElem, Vector.getElem_set, Fin.ext_iff]
  by_cases hy : y.val = py.val
  · rw [if_pos hy, Vector.getElem_set]
    by_cases hx : x.val = px.val
    · simp [hy, hx]
    · simp [hy, hx, Ne.symm hx]
  · rw [if_neg hy, if_neg (by omega)]

@[simp] theorem FrameBuffer.pixel_clear (y : Fin 32) (x : Fin 64) :
    FrameBuffer.pixel FrameBuffer.clear y x = false := by
  simp [FrameBuffer.pixel, FrameBuffer.clear, Vector.get_eq_getElem]

/-- Two framebuffers with the same pixels are the same. -/
theorem FrameBuffer.ext_pixel {f g : FrameBuffer} (h : ∀ y x, FrameBuffer.pixel f y x = FrameBuffer.pixel g y x) :
    f = g := by
  ext y hy x hx
  exact h ⟨y, hy⟩ ⟨x, hx⟩

/-! ### Fetch and step (R242, R244) -/

theorem step_waiting {s : State} {r : Reg} (h : s.mode = .awaitingKey r) : step s = .next s := by
  simp only [step, cycle, h]

theorem step_running {s : State} (h : s.mode = .running) :
    step s = guardRange s.pc.toNat 2 (runWord (s.wordAt s.pc.toNat) s.advancePc) := by
  simp only [step, cycle, h]

/-- In range, a running step is `runWord` of the fetched word at the advanced state. -/
theorem step_fetch {s : State} (h : s.mode = .running) (hpc : s.pc.toNat ≤ 0xFFE) :
    step s = runWord (s.wordAt s.pc.toNat) s.advancePc := by
  rw [step_running h, guardRange_of_inRange (by omega)]

theorem runWord_some {w : Word} {i : Instr} (h : decode w = some i) (s : State) : runWord w s = exec i s := by
  simp only [runWord, h]

theorem runWord_none {w : Word} (h : decode w = none) (s : State) : runWord w s = .fault (.unknownOpcode w) := by
  simp only [runWord, h, raise]

/-- What a step that answers a next state did. -/
theorem step_next {s t : State} (h : step s = .next t) :
    (∃ r, s.mode = .awaitingKey r ∧ t = s) ∨
      (s.mode = .running ∧ s.pc.toNat ≤ 0xFFE ∧
        ∃ i, decode (s.wordAt s.pc.toNat) = some i ∧ exec i s.advancePc = .next t) := by
  cases hm : s.mode with
  | awaitingKey r => rw [step_waiting hm] at h; cases h; exact .inl ⟨r, rfl, rfl⟩
  | running =>
    refine .inr ⟨rfl, ?_⟩
    by_cases hpc : s.pc.toNat ≤ 0xFFE
    · refine ⟨hpc, ?_⟩
      rw [step_fetch hm hpc] at h
      cases hd : decode (s.wordAt s.pc.toNat) with
      | none => rw [runWord_none hd] at h; cases h
      | some i => exact ⟨i, rfl, by rw [← runWord_some hd]; exact h⟩
    · rw [step_running hm, guardRange_of_outside (by decide) (by omega)] at h; cases h

/-! ### Placing the next word -/

theorem fetchPoint_le (pc : Word) : (fetchPoint pc).toNat + 2 ≤ memSize := by
  unfold fetchPoint
  split
  · rename_i h
    rcases (inRange_iff _ _).mp h with h | h
    · cases h
    · exact h
  · decide

/-- Two bytes written at `a` are read back as the word they make (R64, R67). -/
theorem State.wordAt_writeBytes {s : State} (h : s.mem.wf s.background) (a : Nat) (hi lo : Byte) :
    (s.writeBytes a [hi, lo]).wordAt a = wordOfBytes hi lo := by
  unfold State.wordAt
  rw [State.writeBytes_readByte h, State.writeBytes_readByte h, dif_pos (by simp), dif_pos (by simp)]
  simp

/-- The word placed for the next step is the word it fetches. -/
theorem State.wordAt_placeWord {s : State} (h : s.mem.wf s.background) (w : Word) :
    (s.placeWord w).wordAt (s.placeWord w).pc.toNat = w :=
  (State.wordAt_writeBytes (s := (s.setMode .running).setPc (fetchPoint s.pc)) h _ _ _).trans
    (Laws.wordOfBytes_bytesOfWord w)

end Sys2Proof.Machine
end

