-- ==== Sys2Proof/Tests/Slice0.lean ====
section
/-! SUPPORT. The model's own tests: words written out from the spec's encodings, the vectors of 95_test_vectors.md (one step
each, expected values from the spec's tables), and for every obligation with hypotheses a witness that meets them. -/

namespace Sys2Proof.Tests

open Sys2Proof.Machine

/-! ## WellFormed: each check refuses an ill-formed number or program -/

theorem smoke_reg : regOperand 16 = none ∧ regOperand 15 = some 15 := by decide
theorem smoke_key : keyOperand 16 = none ∧ keyOperand 15 = some 15 := by decide
theorem smoke_nibble : nibbleOperand 16 = none ∧ nibbleOperand 15 = some 15 := by decide
theorem smoke_byte : byteOperand 256 = none ∧ byteOperand 255 = some 255 := by decide
theorem smoke_addr : addrOperand 4096 = none ∧ addrOperand 4095 = some 4095 := by decide
theorem smoke_program : programFits (List.replicate 3585 0) = false ∧ programFits (List.replicate 3584 0) = true := by
  constructor <;> (unfold programFits; rw [List.length_replicate]; decide)

/-! ## Decoding: every constructor from a word written out bit by bit (R91, R95; expected from the opcode table) -/

theorem test_decode_control :
    decode 0b0000000011101110 = some .ret ∧ decode 0b0001001000001100 = some (.jp 0x20C) ∧
    decode 0b0010001101000101 = some (.call 0x345) ∧ decode 0b0011101001000010 = some (.seImm 0xA 0x42) ∧
    decode 0b0100101001000010 = some (.sneImm 0xA 0x42) ∧ decode 0b0101101010110000 = some (.seReg 0xA 0xB) ∧
    decode 0b1001101010110000 = some (.sneReg 0xA 0xB) ∧ decode 0b1011001000110100 = some (.jpV0 0x234) := by decide

theorem test_decode_alu :
    decode 0b0110101011111111 = some (.ldImm 0xA 0xFF) ∧ decode 0b0111000100000101 = some (.addImm 1 5) ∧
    decode 0b1000101010110000 = some (.ldReg 0xA 0xB) ∧ decode 0b1000101010110001 = some (.orReg 0xA 0xB) ∧
    decode 0b1000101010110010 = some (.andReg 0xA 0xB) ∧ decode 0b1000101010110011 = some (.xorReg 0xA 0xB) ∧
    decode 0b1000101010110100 = some (.addReg 0xA 0xB) ∧ decode 0b1000101010110101 = some (.subReg 0xA 0xB) ∧
    decode 0b1000101010110110 = some (.shr 0xA 0xB) ∧ decode 0b1000101010110111 = some (.subn 0xA 0xB) ∧
    decode 0b1000101010111110 = some (.shl 0xA 0xB) ∧ decode 0b1100000000001111 = some (.rnd 0 0x0F) := by decide

theorem test_decode_index :
    decode 0b1010001100000000 = some (.ldI 0x300) ∧ decode 0b1111001000011110 = some (.addI 2) ∧
    decode 0b1111000000101001 = some (.ldF 0) ∧ decode 0b1111000000110011 = some (.ldB 0) ∧
    decode 0b1111001001010101 = some (.storeRegs 2) ∧ decode 0b1111001001100101 = some (.loadRegs 2) := by decide

theorem test_decode_display_timers_keys :
    decode 0b0000000011100000 = some .cls ∧ decode 0b1101000100100011 = some (.drw 1 2 3) ∧
    decode 0b1110000010011110 = some (.skp 0) ∧ decode 0b1110000010100001 = some (.sknp 0) ∧
    decode 0b1111001000000111 = some (.ldVxDt 2) ∧ decode 0b1111000100001010 = some (.ldVxK 1) ∧
    decode 0b1111000000010101 = some (.ldDtVx 0) ∧ decode 0b1111001100011000 = some (.ldStVx 3) := by decide

/-- The illegal words of B1. -/
theorem test_decode_illegal :
    ([0x0000, 0x00E1, 0x00EF, 0x0123, 0x00FB, 0x00C4, 0x5121, 0x512F, 0x8128, 0x812D, 0x812F, 0x9121, 0xE000, 0xE09F,
      0xE1A2, 0xF000, 0xF130, 0xF175, 0xF185, 0xF1FF] : List Word).map decode = List.replicate 20 none := by decide

theorem test_decode_bytes :
    decodeBytes [0xD1, 0x23, 0x00] = .instr (.drw 1 2 3) [0x00] ∧ decodeBytes [0xD1] = .truncated ∧
    decodeBytes [0x00, 0x00] = .unknownOpcode 0 ∧ decodeTableWord 16 0xD123 = some (.drw 1 2 3) := by decide

/-! ## One step from a small state (Part B of 95_test_vectors.md) -/

/-- The reset state with the word `w` at 0x200, changed by `prep`. -/
def start (w : Nat) (prep : State → State := id) : State := prep (State.reset.withFetchWord 16 w)

/-- Does the step answer a next state whose view is `a`? -/
def gives {α : Type} [DecidableEq α] (s : State) (f : State → α) (a : α) : Bool :=
  match step s with
  | .next t => f t == a
  | .fault _ => false
  | .refused _ => false

/-- Does the step raise `e`? -/
def raises (s : State) (e : Fault) : Bool :=
  match step s with
  | .next _ => false
  | .fault d => d == e
  | .refused _ => false

/-- Switch one quirk on. -/
def quirk (f : Quirks → Quirks) (s : State) : State := s.withQuirks (f s.cfg.q)
/-- `I <- a`, with `bs` stored there. -/
def dataAt (a : Nat) (bs : List Byte) (s : State) : State := (s.setI (BitVec.ofNat 16 a)).writeBytes a bs
/-- `n` live stack entries, all `a`. -/
def stackOf (n : Fin 17) (a : Word) (s : State) : State := { s with sp := n, stack := Vector.replicate 16 a }
/-- The framebuffer with one pixel toggled. -/
def dot (y : Fin 32) (x : Fin 64) (s : State) : State := s.setFb (FrameBuffer.toggle s.fb y x)

theorem test_step_reset : raises State.reset (.unknownOpcode 0) = true := by decide
theorem test_step_last_word :
    gives (((start 0x00E0).writeBytes 0xFFE [0x60, 0x2A]).setPc 0xFFE) (fun t => (t.getV 0, t.pc)) (0x2A, 0x1000) = true := by
  decide
theorem test_step_out_of_memory : raises ((start 0x00E0).setPc 0xFFF) (.memoryOutOfBounds 0x1000) = true := by decide
theorem test_step_odd_pc :
    gives (((start 0x00E0).writeBytes 0x201 [0x61, 0x07]).setPc 0x201) (fun t => (t.getV 1, t.pc)) (0x07, 0x203) = true := by
  decide

theorem test_jp : gives (start 0x1ABC) (·.pc) 0x0ABC = true := by decide
theorem test_call : gives (start 0x2345) (fun t => (t.stack[0], t.sp, t.pc)) (0x0202, 1, 0x0345) = true := by decide
theorem test_call_full : raises (start 0x2345 (stackOf 16 0)) .stackOverflow = true := by decide
theorem test_ret : gives (start 0x00EE (stackOf 2 0x456)) (fun t => (t.sp, t.pc)) (1, 0x0456) = true := by decide
theorem test_ret_empty : raises (start 0x00EE) .stackUnderflow = true := by decide
theorem test_seImm : gives (start 0x3A42 (·.setV 0xA 0x42)) (·.pc) 0x204 = true := by decide
theorem test_sneImm : gives (start 0x4A42 (·.setV 0xA 0x42)) (·.pc) 0x202 = true := by decide
theorem test_seReg : gives (start 0x5AB0 fun s => (s.setV 0xA 0x10).setV 0xB 0x11) (·.pc) 0x202 = true := by decide
theorem test_sneReg : gives (start 0x9AB0 fun s => (s.setV 0xA 0x10).setV 0xB 0x11) (·.pc) 0x204 = true := by decide
theorem test_jpV0_off : gives (start 0xBFFF (·.setV 0 0xFF)) (·.pc) 0x10FE = true := by decide
theorem test_jpV0_on :
    gives (start 0xB234 fun s => quirk (fun q => { q with jumpOffset := true }) ((s.setV 0 0x10).setV 2 0x05)) (·.pc)
      0x0039 = true := by decide

theorem test_ldImm : gives (start 0x6AFF) (·.getV 0xA) 0xFF = true := by decide
theorem test_addImm_wraps : gives (start 0x7102 (·.setV 1 0xFF)) (fun t => (t.getV 1, t.getV vf)) (0x01, 0x00) = true := by
  decide
theorem test_ldReg : gives (start 0x8120 (·.setV 2 0x77)) (·.getV 1) 0x77 = true := by decide
theorem test_or : gives (start 0x8011 fun s => ((s.setV 0 0xF0).setV 1 0x0F).setV vf 1) (fun t => (t.getV 0, t.getV vf))
    (0xFF, 0x01) = true := by decide
theorem test_and : gives (start 0x8012 fun s => ((s.setV 0 0xF3).setV 1 0x3F).setV vf 1) (fun t => (t.getV 0, t.getV vf))
    (0x33, 0x01) = true := by decide
theorem test_xor : gives (start 0x8013 fun s => ((s.setV 0 0xFF).setV 1 0x0F).setV vf 1) (fun t => (t.getV 0, t.getV vf))
    (0xF0, 0x01) = true := by decide
theorem test_add_carry : gives (start 0x8014 fun s => (s.setV 0 0xFF).setV 1 0x01) (fun t => (t.getV 0, t.getV vf))
    (0x00, 0x01) = true := by decide
theorem test_add_flag_wins : gives (start 0x8F14 fun s => (s.setV vf 0x10).setV 1 0xF5) (·.getV vf) 0x01 = true := by decide
theorem test_sub_borrow : gives (start 0x8015 fun s => (s.setV 0 0x03).setV 1 0x05) (fun t => (t.getV 0, t.getV vf))
    (0xFE, 0x00) = true := by decide
theorem test_sub_equal : gives (start 0x8015 fun s => (s.setV 0 0x07).setV 1 0x07) (fun t => (t.getV 0, t.getV vf))
    (0x00, 0x01) = true := by decide
theorem test_subn : gives (start 0x8017 fun s => (s.setV 0 0x05).setV 1 0x03) (fun t => (t.getV 0, t.getV vf))
    (0xFE, 0x00) = true := by decide
theorem test_shr_off : gives (start 0x8016 fun s => (s.setV 0 0xAA).setV 1 0x05) (fun t => (t.getV 0, t.getV 1, t.getV vf))
    (0x02, 0x05, 0x01) = true := by decide
theorem test_shr_on :
    gives (start 0x8016 fun s => quirk (fun q => { q with shiftSource := true }) ((s.setV 0 0x05).setV 1 0xAA))
      (fun t => (t.getV 0, t.getV vf)) (0x02, 0x01) = true := by decide
theorem test_shl_off : gives (start 0x801E (·.setV 1 0x81)) (fun t => (t.getV 0, t.getV 1, t.getV vf))
    (0x02, 0x81, 0x01) = true := by decide
theorem test_shl_on :
    gives (start 0x801E fun s => quirk (fun q => { q with shiftSource := true }) ((s.setV 0 0x40).setV 1 0xFF))
      (fun t => (t.getV 0, t.getV vf)) (0x80, 0x00) = true := by decide
theorem test_rnd_completes : gives (start 0xC00F) (fun t => (t.pc, t.draws)) (0x202, 1) = true := by decide

theorem test_ldI : gives (start 0xAFFF) (·.i) 0x0FFF = true := by decide
theorem test_addI_wraps : gives (start 0xF21E fun s => (s.setI 0xFFFF).setV 2 0x02) (·.i) 0x0001 = true := by decide
theorem test_addI_past_memory : gives (start 0xF21E fun s => (s.setI 0x0FFF).setV 2 0x01) (·.i) 0x1000 = true := by decide
theorem test_ldF_low_nibble : gives (start 0xF029 (·.setV 0 0x1A)) (·.i) 0x0032 = true := by decide
theorem test_ldB : gives (start 0xF033 fun s => (s.setI 0x300).setV 0 0xEA) (·.readBytes 0x300 3) [2, 3, 4] = true := by decide
theorem test_ldB_outside : raises (start 0xF033 (·.setI 0x0FFE)) (.memoryOutOfBounds 0x1000) = true := by decide
theorem test_store_on :
    gives (start 0xF255 fun s => quirk (fun q => { q with memoryIncrement := true })
        ((((s.setV 0 0x11).setV 1 0x22).setV 2 0x33).setI 0x400))
      (fun t => (t.readBytes 0x400 4, t.i)) ([0x11, 0x22, 0x33, 0x00], 0x0403) = true := by decide
theorem test_store_outside : raises (start 0xFF55 (·.setI 0x0FF1)) (.memoryOutOfBounds 0x1000) = true := by decide
theorem test_load_off :
    gives (start 0xF265 fun s => dataAt 0x300 [2, 3, 4] (s.setV 3 0x99))
      (fun t => (t.getV 0, t.getV 1, t.getV 2, t.getV 3, t.i)) (2, 3, 4, 0x99, 0x0300) = true := by decide
theorem test_load_outside : raises (start 0xF065 (·.setI 0x1234)) (.memoryOutOfBounds 0x1234) = true := by decide

theorem test_cls : gives (start 0x00E0 fun s => dot 3 5 (s.setV vf 1)) (fun t => (t.pixel 3 5, t.getV vf)) (false, 1) = true := by
  decide
theorem test_drw_wraps :
    gives (start 0xD012 fun s => dataAt 0x300 [0x80, 0x80] (s.setV 1 0x1F))
      (fun t => (t.pixel 31 0, t.pixel 0 0, t.pixel 31 1, t.getV vf)) (true, true, false, 0) = true := by decide
theorem test_drw_clips :
    gives (start 0xD011 fun s => dot 0 0 (quirk (fun q => { q with spriteClip := true })
        (dataAt 0x300 [0xC0] (s.setV 0 0x3F))))
      (fun t => (t.pixel 0 63, t.pixel 0 0, t.getV vf)) (true, true, 0) = true := by decide
theorem test_drw_collides :
    gives (start 0xD011 fun s => dot 0 0 (dataAt 0x300 [0xC0] s))
      (fun t => (t.pixel 0 0, t.pixel 0 1, t.getV vf)) (false, true, 1) = true := by decide

theorem test_ldVxDt : gives (start 0xF207 (·.setDt 0x07)) (fun t => (t.getV 2, t.dt)) (0x07, 0x07) = true := by decide
theorem test_ldDtVx : gives (start 0xF015 (·.setV 0 0x0A)) (·.dt) 0x0A = true := by decide
theorem test_ldStVx : gives (start 0xF318 (·.setV 3 0x02)) (fun t => (t.st, t.soundActive)) (0x02, true) = true := by decide
theorem test_skp_low_nibble : gives (start 0xE09E fun s => (s.setV 0 0x15).setKey 5 true) (·.pc) 0x204 = true := by decide
theorem test_sknp : gives (start 0xE0A1 fun s => (s.setV 0 0x05).setKey 5 true) (·.pc) 0x202 = true := by decide
theorem test_ldVxK :
    gives (start 0xF10A (·.setKey 3 true)) (fun t => (t.mode, t.pc, t.getV 1)) (.awaitingKey 1, 0x202, 0) = true := by decide

/-! ## The other operations (B7, B8) -/

theorem test_tick : (tickTimers ((State.reset.setDt 0xFF).setSt 0x01)).dt = 0xFE ∧
    (tickTimers ((State.reset.setDt 0xFF).setSt 0x01)).st = 0 ∧ (tickTimers State.reset).dt = 0 := by decide
theorem test_key_delivered :
    let t := setKeyState 0xF true (State.reset.setMode (.awaitingKey 0xF))
    t.getV vf = 0x0F ∧ t.mode = .running ∧ t.getKey 0xF = true := by decide
theorem test_key_release_waits :
    (setKeyState 3 false ((State.reset.setKey 3 true).setMode (.awaitingKey 1))).mode = .awaitingKey 1 := by decide
theorem test_load :
    let t := (((State.reset.writeByte 0x400 0x77).writeByte 0 0).setV 3 0x55).loaded [0x12, 0x00]
    t.readByte 0 = 0xF0 ∧ t.readByte 0x400 = 0 ∧ t.readBytes 0x200 2 = [0x12, 0x00] ∧ t.getV 3 = 0 := by decide
/-- Glyph 7 (the table of R33). -/
theorem test_font : State.reset.readBytes 0x023 5 = [0xF0, 0x10, 0x20, 0x40, 0x40] := by decide

/-! ## Witnesses: for every obligation with hypotheses, states and operands that meet them all together, the clauses of a
statement each with its own, at the ends of their ranges -/

/-- Does the outcome answer a next state? -/
def completes (r : Result) : Bool :=
  match r with
  | .next _ => true
  | .fault _ => false
  | .refused _ => false

theorem next_of_completes {r : Result} (h : completes r = true) : ∃ t, r = .next t := by
  cases r with
  | next t => exact ⟨t, rfl⟩
  | fault _ => cases h
  | refused _ => cases h

/-- The reset state after `prep`, for the instructions as `exec` sees them. -/
def at' (prep : State → State) : State := prep State.reset
/-- All quirks on. -/
def quirksOn (s : State) : State := s.withQuirks ⟨true, true, true, true⟩

theorem witness_LegalWordIsTheWordOfItsInstruction : decode 0xDABC = some (.drw 0xA 0xB 0xC) := by decide

theorem witness_StepRunsTheDecodedInstruction :
    let s := ((start 0x00E0).writeBytes 0xFFE [0x60, 0x2A]).setPc 0xFFE
    s.mode = .running ∧ s.pc.toNat ≤ 0xFFE ∧
      decode (wordOfBytes (s.readByte s.pc.toNat) (s.readByte (s.pc.toNat + 1))) = some (.ldImm 0 0x2A) := by decide

theorem witness_StepOnIllegalWordRaisesUnknownOpcode :
    let s := start 0x812D
    s.mode = .running ∧ s.pc.toNat ≤ 0xFFE ∧
      (0x812D : Word) = wordOfBytes (s.readByte s.pc.toNat) (s.readByte (s.pc.toNat + 1)) ∧ decode 0x812D = none := by decide

theorem witness_FetchOutsideMemoryRaises :
    (State.reset.setPc 0xFFF).mode = .running ∧ 0xFFE < (State.reset.setPc 0xFFF).pc.toNat ∧
      0xFFE < (State.reset.setPc 0x10FE).pc.toNat := by decide

theorem witness_WaitingStepIsANoOp : (State.reset.setMode (.awaitingKey 3)).mode = .awaitingKey 3 := by decide

theorem witness_OnlyKeyWaitReportsAwaitingKey :
    (start 0xF30A).mode = .running ∧ (∃ t, step (start 0xF30A) = .next t) ∧
      (start 0x00E0).mode = .running ∧ ∃ t, step (start 0x00E0) = .next t :=
  ⟨by decide, next_of_completes (by decide), by decide, next_of_completes (by decide)⟩

theorem witness_StoredInstructionIsFetchedNext :
    let s := at' fun s => ((s.setI 0x200).setV 0 0x12).setV 1 0x0C
    s.mem.wf s.background ∧ s.mode = .running ∧ s.i = s.pc ∧ 1 ≤ (1 : Reg).val ∧ s.i.toNat + (1 : Reg).val ≤ 0xFFF ∧
      decode (wordOfBytes (s.getV 0) (s.getV 1)) = some (.jp 0x20C) := by decide

theorem witness_StoredInstructionIsFetchedNext_at_the_top :
    let s := at' fun s => (((s.setI 0xFFE).setPc 0xFFE).setV 0 0x12).setV 1 0x0C
    s.mem.wf s.background ∧ s.mode = .running ∧ s.i = s.pc ∧ 1 ≤ (1 : Reg).val ∧ s.i.toNat + (1 : Reg).val ≤ 0xFFF ∧
      decode (wordOfBytes (s.getV 0) (s.getV 1)) = some (.jp 0x20C) := by decide

theorem witness_SelfLoopIsAFixedPoint :
    let s := start 0x1200
    s.mode = .running ∧ s.pc.toNat ≤ 0xFFE ∧ decode (s.wordAt s.pc.toNat) = some (.jp 0x200) ∧
      (0x200 : Addr12).toNat = s.pc.toNat := by decide

theorem witness_ReadAfterWrite :
    State.reset.mem.wf State.reset.background ∧ (0xFFF : Nat) ≤ 0xFFF ∧
      (State.reset.writeByte 0xFFF 7).mem.wf (State.reset.writeByte 0xFFF 7).background := by decide

theorem witness_RetPopsTheReturnAddress :
    (at' (stackOf 0 0x456)).sp.val = 0 ∧ (at' (stackOf 1 0x456)).sp.val = (0 : Fin 16).val + 1 ∧
      (at' (stackOf 16 0x456)).sp.val = (15 : Fin 16).val + 1 := by decide

theorem witness_CallPushesTheAdvancedPc :
    (at' (stackOf 16 0x456)).sp.val = 16 ∧ (at' (stackOf 0 0x456)).sp.val = (0 : Fin 16).val ∧
      (at' (stackOf 15 0x456)).sp.val = (15 : Fin 16).val := by decide

theorem witness_CallThenRetRoundTrip :
    (∃ t, exec (.call 0x345) (at' (stackOf 0 0x456)) = .next t) ∧
      ∃ t, exec (.call 0x345) (at' (stackOf 15 0x456)) = .next t :=
  ⟨next_of_completes (by decide), next_of_completes (by decide)⟩

theorem witness_JumpWithOffset : (0xF : Reg).val = (0xFFF : Addr12).toNat / 256 ∧
    (0x0 : Reg).val = (0x0FF : Addr12).toNat / 256 := by decide

theorem witness_AddRegistersWithCarry : (0xE : Reg) ≠ vf := by decide
theorem witness_SubtractionsWithNotBorrow : (0xE : Reg) ≠ vf := by decide

theorem witness_ShiftsWithShiftedOutBit :
    let s := at' fun s => (s.setV 1 0x81).setV 2 0x7E
    0x7E = (if s.cfg.q.shiftSource = true then (s.getV 1).toNat else (s.getV 2).toNat) ∧
    0x81 = (if (quirksOn s).cfg.q.shiftSource = true then ((quirksOn s).getV 1).toNat else ((quirksOn s).getV 2).toNat) ∧
    (1 : Reg) ≠ vf := by decide

theorem witness_BcdStoresThreeDigits :
    let s := at' (·.setI 0xFFD)
    s.mem.wf s.background ∧ s.base ≤ 0xFFD := by decide

theorem witness_StoreRegisterRange :
    let s := at' (·.setI 0xFF0)
    s.mem.wf s.background ∧ s.base + (0xF : Reg).val ≤ 0xFFF := by decide

theorem witness_LoadRegisterRange : (at' (·.setI 0xFF0)).base + (0xF : Reg).val ≤ 0xFFF := by decide

theorem witness_AccessOutsideMemoryRaises :
    0xFFD < (at' (·.setI 0xFFE)).base ∧ 0xFFF < (at' (·.setI 0xFF1)).base + (0xF : Reg).val ∧
      ((0xF : Nibble) ≠ 0 ∧ 0x1000 < (at' (·.setI 0xFF2)).base + (0xF : Nibble).toNat) := by decide

theorem witness_DrawTogglesTheCoveredPixels :
    ((0 : Nibble) = 0 ∧ 0x1000 < (at' (·.setI 0xFFFF)).base) ∧
      ((0xF : Nibble) = 0 ∨ (at' (·.setI 0xFF1)).base + (0xF : Nibble).toNat ≤ 0x1000) := by decide

/-- A drawn pixel that wraps, one that is clipped away, and one on the last column. -/
theorem witness_SpriteCovers :
    let s := at' fun s => dataAt 0x300 [0xC0] (s.setV 0 0x3F)
    SpriteCovers s 0 1 1 0 63 ∧ SpriteCovers s 0 1 1 0 0 ∧ SpriteCovers (quirksOn s) 0 1 1 0 63 := by
  exact ⟨⟨0, 0, by decide⟩, ⟨0, 1, by decide⟩, ⟨0, 0, by decide⟩⟩

/-- A draw that collides, so that a pixel goes from on to off, and one that does not. -/
theorem witness_CollisionIsAPixelTurnedOff :
    let s := at' fun s => dataAt 0x300 [0x80] s
    (∃ t, exec (.drw 0 1 1) s = .next t) ∧ (∃ t, exec (.drw 0 1 1) (dot 0 0 s) = .next t ∧
      (dot 0 0 s).pixel 0 0 = true ∧ t.pixel 0 0 = false) := by
  exact ⟨next_of_completes (by decide), ⟨_, rfl, by decide, by decide⟩⟩

theorem witness_DrawingTwiceRestoresTheScreen :
    let s := at' fun s => dataAt 0x300 [0x80] s
    (0 : Reg) ≠ vf ∧ (1 : Reg) ≠ vf ∧ (∃ t, exec (.drw 0 1 1) s = .next t) ∧ (∀ py px, s.pixel py px = false) ∧
      SpriteCovers s 0 1 1 0 0 := by
  exact ⟨by decide, by decide, next_of_completes (by decide), by decide, ⟨0, 0, by decide⟩⟩

theorem witness_ClipAndWrapAgreeInsideTheScreen :
    let s := at' fun s => (s.setV 0 56).setV 1 17
    (s.getV 0).toNat % 64 ≤ 56 ∧ (s.getV 1).toNat % 32 + (0xF : Nibble).toNat ≤ 32 := by decide

theorem witness_KeySkips : (5 : Key).val = ((at' (·.setV 0 0x15)).getV 0).toNat % 16 ∧
    (15 : Key).val = ((at' (·.setV 0 0xFF)).getV 0).toNat % 16 := by decide

/-- A schedule with a tick on either side of the step of a self-loop, from `DT` = 5. -/
theorem witness_DelayCountsTicksWhateverTheSteps :
    let s := (start 0x1200).setDt 5
    (∀ op ∈ [Operation.tickTimers, .step, .tickTimers], op = .tickTimers ∨ op = .step) ∧
    (∀ pre post u, [Operation.tickTimers, .step, .tickTimers] = pre ++ .step :: post → runSchedule .halt pre s = .next u →
      u.mode = .running → ∀ x, decode (u.wordAt u.pc.toNat) ≠ some (.ldDtVx x)) ∧
    ∃ t, runSchedule .halt [.tickTimers, .step, .tickTimers] s = .next t := by
  refine ⟨by decide, ?_, next_of_completes (by decide)⟩
  intro pre post u hsplit hrun _ x
  match pre, hsplit with
  | [], h => cases h
  | [_], h =>
    cases h
    cases hrun
    have hw : decode ((tickTimers ((start 0x1200).setDt 5)).wordAt (tickTimers ((start 0x1200).setDt 5)).pc.toNat) =
        some (.jp 0x200) := by decide
    intro hx
    cases hw.symm.trans hx
  | [_, _], h => cases h
  | _ :: _ :: _ :: rest, h =>
    have := congrArg List.length h
    simp at this

/-- A waiting core with an FX15 at `PC`: its step executes nothing, so the schedule is covered. -/
theorem witness_DelayCountsTicksWhateverTheSteps_waiting :
    let s := (start 0xF015).setMode (.awaitingKey 3)
    decode (s.wordAt s.pc.toNat) = some (.ldDtVx 0) ∧
    (∀ op ∈ [Operation.step], op = .tickTimers ∨ op = .step) ∧
    (∀ pre post u, [Operation.step] = pre ++ .step :: post → runSchedule .halt pre s = .next u →
      u.mode = .running → ∀ x, decode (u.wordAt u.pc.toNat) ≠ some (.ldDtVx x)) ∧
    ∃ t, runSchedule .halt [.step] s = .next t := by
  refine ⟨by decide, by decide, ?_, next_of_completes (by decide)⟩
  intro pre post u hsplit hrun hmode
  match pre, hsplit with
  | [], _ => cases hrun; cases hmode
  | _ :: rest, h =>
    have := congrArg List.length h
    simp at this

theorem witness_TimersAreDecoupledFromSteps :
    (∃ t, step (start 0xF015 (·.setV 0 9)) = .next t ∧ t.dt ≠ (start 0xF015 (·.setV 0 9)).dt) ∧
    (∃ t, step (start 0xF018 (·.setV 0 9)) = .next t ∧ t.st ≠ (start 0xF018 (·.setV 0 9)).st) :=
  ⟨⟨_, rfl, by decide⟩, ⟨_, rfl, by decide⟩⟩

theorem witness_SetKeyStateRecordsAndDelivers :
    State.reset.mode = .running ∧ (State.reset.setMode (.awaitingKey 0xF)).mode = .awaitingKey 0xF := by decide

theorem witness_WaitEndsOnlyByPressOrLoad :
    let s := State.reset.setMode (.awaitingKey 0xF)
    s.mode = .awaitingKey 0xF ∧
      (∃ t, perform (.setKeyState 3 true) s = .next t ∧ t.mode ≠ .awaitingKey 0xF) ∧
      ∃ t, perform (.load []) s = .next t ∧ t.mode ≠ .awaitingKey 0xF :=
  ⟨by decide, ⟨_, rfl, by decide⟩, ⟨_, rfl, by decide⟩⟩

theorem witness_LoadResetsAndWritesTheProgram : (List.replicate 3584 (0x12 : Byte)).length ≤ 3584 := by
  rw [List.length_replicate]
theorem witness_LoadTooLargeFails : 3584 < (List.replicate 3585 (0x12 : Byte)).length := by
  rw [List.length_replicate]; decide

theorem witness_LoadedProgramRunsFromItsFirstWord :
    (List.replicate 3582 (0x12 : Byte)).length + 2 ≤ 3584 ∧ decode (wordOfBytes 0x12 0x0C) = some (.jp 0x20C) :=
  ⟨by rw [List.length_replicate], by decide⟩

theorem witness_StepErrorsArePrecise :
    step (start 0x00EE) = .fault .stackUnderflow ∧ (start 0x00EE).pc.toNat ≤ 0xFFE ∧
      step (State.reset.setPc 0xFFF) = .fault (.memoryOutOfBounds 0x1000) ∧
      0xFFE < (State.reset.setPc 0xFFF).pc.toNat := ⟨rfl, by decide, rfl, by decide⟩

theorem witness_InstructionErrorsAreExactlyThoseListed :
    exec (.call 0x345) (at' (stackOf 16 0)) = .fault .stackOverflow ∧
      exec .ret State.reset = .fault .stackUnderflow ∧
      exec (.ldB 0) (at' (·.setI 0xFFE)) = .fault (.memoryOutOfBounds 0x1000) ∧
      exec (.storeRegs 0xF) (at' (·.setI 0xFF1)) = .fault (.memoryOutOfBounds 0x1000) ∧
      exec (.loadRegs 0) (at' (·.setI 0x1234)) = .fault (.memoryOutOfBounds 0x1234) ∧
      exec (.drw 0 1 1) (at' (·.setI 0x1000)) = .fault (.memoryOutOfBounds 0x1000) :=
  ⟨rfl, rfl, rfl, rfl, rfl, rfl⟩

theorem witness_FaultPolicyHaltsOrSkips : step State.reset = .fault (.unknownOpcode 0) := rfl

theorem witness_InstructionsWriteOnlyWhatTheyMay :
    State.reset.mem.wf State.reset.background ∧ ∃ t, exec (.storeRegs 0xF) (at' (·.setI 0x300)) = .next t :=
  ⟨by decide, next_of_completes (by decide)⟩

theorem witness_ConfigurationNeverChanges :
    (∃ t, runSchedule .halt [.load [0x12, 0x00], .step, .tickTimers, .setKeyState 3 true] State.reset = .next t) ∧
      ∃ t, runSchedule .skip [.step, .step] State.reset = .next t :=
  ⟨next_of_completes (by decide), next_of_completes (by decide)⟩

/-- The two settings differ in every quirk `CALL` does not read, and agree on the one `SHR` does. -/
theorem witness_QuirksActOnlyWhereNamed :
    quirksAgreeFor (.call 0x345) ⟨true, true, true, true⟩ State.reset.cfg.q ∧
      quirksAgreeFor (.shr 1 2) ⟨false, true, true, true⟩ State.reset.cfg.q := ⟨trivial, rfl⟩

/-- A completed call, an error passed over, a load, a tick and a press. -/
theorem witness_StepKeepsTheInvariant :
    (start 0x2345).Inv ∧ (∃ t, performUnder .halt .step (start 0x2345) = .next t) ∧
    (start 0x00EE).Inv ∧ (∃ t, performUnder .skip .step (start 0x00EE) = .next t) ∧
    (∃ t, performUnder .halt (.load [0x12, 0x00]) (start 0x00EE) = .next t) ∧
    (∃ t, performUnder .halt .tickTimers (start 0x00EE) = .next t) ∧
    ∃ t, performUnder .halt (.setKeyState 3 true) (start 0x00EE) = .next t :=
  ⟨by decide, next_of_completes (by decide), by decide, next_of_completes (by decide), next_of_completes (by decide),
    next_of_completes (by decide), next_of_completes (by decide)⟩

theorem witness_ReachableStatesMeetTheInvariant :
    Reachable defaultConfig State.reset ∧ Reachable defaultConfig (State.reset.setPc 0x202) :=
  ⟨.new, .perform .step .new rfl⟩

end Sys2Proof.Tests
end

section
/-! SUPPORT. Proofs of the statements about the state: decoding of the words written out, frames, the effect of an
instruction, the invariant, reset, the sound timer, single instructions and drawing. -/

namespace Sys2Proof.Machine

/-! ## Decoding the word of an instruction -/

/-- Decoding inverts encoding (R94, R101), one row of the opcode table per case. -/
theorem decode_encode (i : Instr) : decode (encode i) = some i := by
  cases i with
  | cls => decide
  | ret => decide
  | _ => simp [encode, decode, decodeArith, decodeKey, decodeMisc]

/-- A number that is the word of `i` decodes to `i`. -/
theorem decode_ofNat {i : Instr} {n : Nat} (h : (encode i).toNat = n) : decode (BitVec.ofNat 16 n) = some i := by
  rw [← h, BitVec.ofNat_toNat, BitVec.setWidth_eq, decode_encode]

theorem decode_nnn {i : Instr} {op : Nibble} {nnn : Addr12} {n : Nat} (hi : encode i = wordNNN op nnn)
    (hn : op.toNat * 4096 + nnn.toNat = n) : decode (BitVec.ofNat 16 n) = some i :=
  decode_ofNat (by rw [hi, Laws.wordNNN_toNat, hn])

theorem decode_xnn {i : Instr} {op : Nibble} {x : Reg} {nn : Byte} {n : Nat} (hi : encode i = wordXNN op x nn)
    (hn : op.toNat * 4096 + x.val * 256 + nn.toNat = n) : decode (BitVec.ofNat 16 n) = some i :=
  decode_ofNat (by rw [hi, Laws.wordXNN_toNat, hn])

theorem decode_xyn {i : Instr} {op : Nibble} {x y : Reg} {k : Nibble} {n : Nat} (hi : encode i = wordXYN op x y k)
    (hn : op.toNat * 4096 + x.val * 256 + y.val * 16 + k.toNat = n) : decode (BitVec.ofNat 16 n) = some i :=
  decode_ofNat (by rw [hi, Laws.wordXYN_toNat, hn])

/-! ## The call stack -/

theorem State.push_some {s t : State} {a : Word} (h : s.push a = some t) :
    ∃ hsp : s.sp.val < 16,
      t = { s with stack := s.stack.set s.sp.val a hsp, sp := ⟨s.sp.val + 1, Nat.succ_lt_succ hsp⟩ } := by
  by_cases hsp : s.sp.val < 16
  · rw [State.push_of_lt hsp] at h
    exact ⟨hsp, (Option.some.inj h).symm⟩
  · rw [State.push_full (by omega)] at h
    cases h

theorem State.pop_some {s t : State} {a : Word} (h : s.pop = some (a, t)) :
    ∃ hsp : 0 < s.sp.val,
      a = s.stack.get ⟨s.sp.val - 1, by omega⟩ ∧ t = { s with sp := ⟨s.sp.val - 1, by omega⟩ } := by
  rcases Nat.eq_zero_or_pos s.sp.val with hsp | hsp
  · rw [State.pop_empty hsp] at h
    cases h
  · rw [State.pop_of_pos hsp] at h
    cases h
    exact ⟨hsp, rfl, rfl⟩

/-! ## Frames

What each update of the state leaves unchanged, and how frames compose. -/

theorem OnlyChanges.refl (P : Component → Prop) (s : State) : OnlyChanges P s s := by
  intro c _
  cases c <;> rfl

theorem OnlyChanges.mono {P Q : Component → Prop} {s t : State} (h : OnlyChanges P s t) (hPQ : ∀ c, P c → Q c) :
    OnlyChanges Q s t :=
  fun c hc => h c fun hP => hc (hPQ c hP)

theorem Component.Same.trans {c : Component} {s t u : State} (h : c.Same s t) (h' : c.Same t u) : c.Same s u := by
  cases c <;> exact Eq.trans h' h

theorem OnlyChanges.trans {P : Component → Prop} {s t u : State} (h : OnlyChanges P s t) (h' : OnlyChanges P t u) :
    OnlyChanges P s u :=
  fun c hc => (h c hc).trans (h' c hc)

/-- A frame that allows a single piece lies within every frame that allows it. -/
theorem OnlyChanges.of_eq {P : Component → Prop} {c : Component} {s t : State} (h : OnlyChanges (· = c) s t)
    (hc : P c) : OnlyChanges P s t :=
  h.mono fun _ hd => hd ▸ hc

section
variable (s : State)

theorem onlyChanges_setV (r : Reg) (b : Byte) : OnlyChanges (· = .v r) s (s.setV r b) := by
  intro c hc
  cases c with
  | v q =>
    have hq : q ≠ r := fun h => hc (h ▸ rfl)
    simp [Component.Same, hq]
  | _ => rfl

theorem onlyChanges_setI (a : Word) : OnlyChanges (· = .i) s (s.setI a) := by
  intro c hc
  cases c with
  | i => exact absurd rfl hc
  | _ => rfl

theorem onlyChanges_setPc (a : Word) : OnlyChanges (· = .pc) s (s.setPc a) := by
  intro c hc
  cases c with
  | pc => exact absurd rfl hc
  | _ => rfl

theorem onlyChanges_setDt (b : Byte) : OnlyChanges (· = .dt) s (s.setDt b) := by
  intro c hc
  cases c with
  | dt => exact absurd rfl hc
  | _ => rfl

theorem onlyChanges_setSt (b : Byte) : OnlyChanges (· = .st) s (s.setSt b) := by
  intro c hc
  cases c with
  | st => exact absurd rfl hc
  | _ => rfl

theorem onlyChanges_setMode (m : Mode) : OnlyChanges (· = .mode) s (s.setMode m) := by
  intro c hc
  cases c with
  | mode => exact absurd rfl hc
  | _ => rfl

theorem onlyChanges_bumpDraws : OnlyChanges (· = .draws) s s.bumpDraws := by
  intro c hc
  cases c with
  | draws => exact absurd rfl hc
  | _ => rfl

theorem onlyChanges_setFb (f : FrameBuffer) : OnlyChanges (fun c => ∃ y x, c = .pixel y x) s (s.setFb f) := by
  intro c hc
  cases c with
  | pixel y x => exact absurd ⟨y, x, rfl⟩ hc
  | _ => rfl

theorem onlyChanges_loadV (x : Reg) (a : Nat) : OnlyChanges (fun c => ∃ k, c = .v k ∧ k ≤ x) s (s.loadV x a) := by
  intro c hc
  cases c with
  | v q =>
    have hq : ¬q ≤ x := fun h => hc ⟨q, rfl, h⟩
    exact (State.loadV_getV s x a q).trans (if_neg hq)
  | _ => simp [Component.Same]

theorem onlyChanges_skipIf (c : Bool) : OnlyChanges (· = .pc) s (s.skipIf c) := by
  cases c with
  | false => exact OnlyChanges.refl _ s
  | true => exact onlyChanges_setPc s _

theorem onlyChanges_setFlag (c : Bool) : OnlyChanges (· = .v vf) s (s.setFlag c) :=
  onlyChanges_setV s vf _

theorem onlyChanges_postIncrement (x : Reg) :
    OnlyChanges (fun c => c = .i ∧ s.cfg.q.memoryIncrement = true) s (postIncrement s x) := by
  unfold postIncrement
  split
  · exact (onlyChanges_setI s _).of_eq ⟨rfl, ‹_›⟩
  · exact OnlyChanges.refl _ s

end

theorem onlyChanges_writeBytes {s : State} (hs : s.mem.wf s.background) (a : Nat) (bs : List Byte) :
    OnlyChanges (fun c => ∃ q, c = .byte q ∧ a ≤ q ∧ q < a + bs.length) s (s.writeBytes a bs) := by
  intro c hc
  cases c with
  | byte q => exact (State.writeBytes_readByte hs a bs q).trans (dif_neg fun h => hc ⟨q, rfl, h⟩)
  | _ => rfl

theorem onlyChanges_of_push {s t : State} {a : Word} (h : s.push a = some t) :
    OnlyChanges (fun c => c = .sp ∨ ∃ j, c = .stackSlot j ∧ j.val = s.sp.val) s t := by
  obtain ⟨hsp, rfl⟩ := State.push_some h
  intro c hc
  cases c with
  | sp => exact absurd (.inl rfl) hc
  | stackSlot j =>
    have hj : s.sp.val ≠ j.val := fun h => hc (.inr ⟨j, rfl, h.symm⟩)
    simp [Component.Same, Vector.get_eq_getElem, hj]
  | _ => rfl

theorem onlyChanges_of_pop {s t : State} {a : Word} (h : s.pop = some (a, t)) : OnlyChanges (· = .sp) s t := by
  obtain ⟨hsp, -, rfl⟩ := State.pop_some h
  intro c hc
  cases c with
  | sp => exact absurd rfl hc
  | _ => rfl

/-! ## What a completed instruction can do

`exec_effect` says it once, for all instructions; the frame, the invariant and the configuration are read off it. -/

/-- `t` is `s` after one of the updates that an instruction makes, every piece it writes being allowed by `P`. -/
inductive Effect (P : Component → Prop) (s : State) : State → Prop
  | reg {x : Reg} {b : Byte} (hx : P (.v x)) : Effect P s (s.setV x b)
  | resultFlag {x : Reg} {b : Byte} {c : Bool} (hx : P (.v x)) (hf : P (.v vf)) : Effect P s (s.setResultFlag x b c)
  | random {x : Reg} {b : Byte} (hx : P (.v x)) (hd : P .draws) : Effect P s (s.setV x b).bumpDraws
  | index {a : Word} (hi : P .i) : Effect P s (s.setI a)
  | delay {b : Byte} (hd : P .dt) : Effect P s (s.setDt b)
  | sound {b : Byte} (hs : P .st) : Effect P s (s.setSt b)
  | latch {r : Reg} (hm : P .mode) : Effect P s (s.setMode (.awaitingKey r))
  | skip {c : Bool} (hpc : P .pc) : Effect P s (s.skipIf c)
  | jump {a : Word} (hpc : P .pc) (ha : a.toNat ≤ 0x10FE) : Effect P s (s.setPc a)
  | call {a : Word} {u : State} (hu : s.push s.pc = some u) (ha : a.toNat ≤ 0x10FE) (hpc : P .pc) (hsp : P .sp)
      (hj : ∀ j : Fin 16, j.val = s.sp.val → P (.stackSlot j)) : Effect P s (u.setPc a)
  | ret {a : Word} {u : State} (hu : s.pop = some (a, u)) (hpc : P .pc) (hsp : P .sp) : Effect P s (u.setPc a)
  | screen {f : FrameBuffer} (hp : ∀ y x, P (.pixel y x)) : Effect P s (s.setFb f)
  | draw {f : FrameBuffer} {c : Bool} (hp : ∀ y x, P (.pixel y x)) (hf : P (.v vf)) :
      Effect P s ((s.setFb f).setFlag c)
  | store {a : Nat} {bs : List Byte} (ha : a + bs.length ≤ memSize)
      (hb : ∀ q, a ≤ q → q < a + bs.length → P (.byte q)) : Effect P s (s.writeBytes a bs)
  | storeInc {a : Nat} {bs : List Byte} {x : Reg} (ha : a + bs.length ≤ memSize)
      (hb : ∀ q, a ≤ q → q < a + bs.length → P (.byte q)) (hi : s.cfg.q.memoryIncrement = true → P .i) :
      Effect P s (postIncrement (s.writeBytes a bs) x)
  | loadInc {a : Nat} {x : Reg} (hv : ∀ k, k ≤ x → P (.v k)) (hi : s.cfg.q.memoryIncrement = true → P .i) :
      Effect P s (postIncrement (s.loadV x a) x)

theorem Effect.of_next {P : Component → Prop} {s t u : State} (hu : Effect P s u)
    (h : (Host.Outcome.next u : Result) = .next t) : Effect P s t :=
  Host.Outcome.next.inj h ▸ hu

theorem Effect.of_guard {P : Component → Prop} {s t u : State} {base n : Nat}
    (hu : n = 0 ∨ base + n ≤ 4096 → Effect P s u) (h : guardRange base n (.next u) = .next t) : Effect P s t := by
  obtain ⟨hr, rfl⟩ := guardRange_next h
  exact hu hr

theorem zextAddr_toNat (nnn : Addr12) : (zextAddr nnn).toNat = nnn.toNat := by
  rw [zextAddr, BitVec.toNat_setWidth]
  omega

theorem zextByte_toNat (b : Byte) : (zextByte b).toNat = b.toNat := by
  rw [zextByte, BitVec.toNat_setWidth]
  omega

/-- Two bytes, or an address and a byte, stay below 0x10FF: the bound on `PC` (R25, R128). -/
theorem jumpTarget_le (s : State) (nnn : Addr12) : (jumpTarget s nnn).toNat ≤ 0x10FE := by
  unfold jumpTarget
  split
  · rw [BitVec.toNat_add, zextByte_toNat, zextByte_toNat]
    omega
  · rw [BitVec.toNat_add, zextAddr_toNat, zextByte_toNat]
    omega

theorem State.length_regBytes (s : State) (x : Reg) : (s.regBytes x).length = x.val + 1 := by
  simp [State.regBytes]

/-- What a completed instruction did: one update, and every piece it writes is one that R36 lets the instruction
write. -/
theorem exec_effect {i : Instr} {s t : State} (h : exec i s = .next t) : Effect (fun c => c.writtenBy s i) s t := by
  cases i with
  | cls => exact .of_next (.screen fun _ _ => .inl rfl) h
  | ret =>
    rw [exec, execRet] at h
    split at h
    · cases h
    · exact .of_next (.ret ‹_› (.inl rfl) (.inl rfl)) h
  | jp nnn => exact .of_next (.jump (by simp [Component.writtenBy]) (by rw [zextAddr_toNat]; omega)) h
  | call nnn =>
    rw [exec, execCall] at h
    split at h
    · cases h
    · exact .of_next (.call ‹_› (by rw [zextAddr_toNat]; omega) (by simp [Component.writtenBy]) (.inr ⟨nnn, rfl⟩)
        fun _ hj => ⟨⟨nnn, rfl⟩, hj⟩) h
  | jpV0 nnn => exact .of_next (.jump (by simp [Component.writtenBy]) (jumpTarget_le s nnn)) h
  | seImm | sneImm | seReg | sneReg | skp | sknp => exact .of_next (.skip (by simp [Component.writtenBy])) h
  | ldImm | addImm | ldReg | orReg | andReg | xorReg | ldVxDt => exact .of_next (.reg rfl) h
  | addReg | subReg | shr | subn | shl => exact .of_next (.resultFlag (.inl rfl) (.inr rfl)) h
  | rnd x nn => exact .of_next (.random rfl ⟨x, nn, rfl⟩) h
  | ldI nnn => exact .of_next (.index (.inl ⟨nnn, rfl⟩)) h
  | addI x => exact .of_next (.index (.inr (.inl ⟨x, .inl rfl⟩))) h
  | ldF x => exact .of_next (.index (.inr (.inl ⟨x, .inr rfl⟩))) h
  | drw x y n => exact .of_guard (fun _ => .draw (fun _ _ => .inr ⟨x, y, n, rfl⟩) rfl) h
  | ldDtVx x => exact .of_next (.delay ⟨x, rfl⟩) h
  | ldStVx x => exact .of_next (.sound ⟨x, rfl⟩) h
  | ldVxK x => exact .of_next (.latch ⟨x, rfl⟩) h
  | ldB x =>
    refine .of_guard (fun hr => .store (bs := bcdDigits _) ?_ fun q hq hq' => .inl ⟨x, rfl, hq, hq'⟩) h
    exact hr.resolve_left (by decide)
  | storeRegs x =>
    refine .of_guard (fun hr => .storeInc ?_ (fun q hq hq' => .inr ⟨x, rfl, hq, ?_⟩)
      fun hi => .inr (.inr ⟨hi, x, .inl rfl⟩)) h
    · rw [State.length_regBytes]
      exact hr.resolve_left (by omega)
    · rw [State.length_regBytes] at hq'
      omega
  | loadRegs x => exact .of_guard (fun _ => .loadInc (fun _ hk => hk) fun hi => .inr (.inr ⟨hi, x, .inr rfl⟩)) h

/-- The pieces an effect does not allow are unchanged. -/
theorem Effect.onlyChanges {P : Component → Prop} {s t : State} (h : Effect P s t) (hs : s.mem.wf s.background) :
    OnlyChanges P s t := by
  cases h with
  | reg hx => exact (onlyChanges_setV s _ _).of_eq hx
  | resultFlag hx hf => exact ((onlyChanges_setV s _ _).of_eq hx).trans ((onlyChanges_setFlag _ _).of_eq hf)
  | random hx hd => exact ((onlyChanges_setV s _ _).of_eq hx).trans ((onlyChanges_bumpDraws _).of_eq hd)
  | index hi => exact (onlyChanges_setI s _).of_eq hi
  | delay hd => exact (onlyChanges_setDt s _).of_eq hd
  | sound hs => exact (onlyChanges_setSt s _).of_eq hs
  | latch hm => exact (onlyChanges_setMode s _).of_eq hm
  | skip hpc => exact (onlyChanges_skipIf s _).of_eq hpc
  | jump hpc => exact (onlyChanges_setPc s _).of_eq hpc
  | call hu _ hpc hsp hj =>
    refine ((onlyChanges_of_push hu).mono ?_).trans ((onlyChanges_setPc _ _).of_eq hpc)
    rintro c (rfl | ⟨j, rfl, hjs⟩)
    · exact hsp
    · exact hj j hjs
  | ret hu hpc hsp => exact ((onlyChanges_of_pop hu).of_eq hsp).trans ((onlyChanges_setPc _ _).of_eq hpc)
  | screen hp => exact (onlyChanges_setFb s _).mono fun c ⟨y, x, hc⟩ => hc ▸ hp y x
  | draw hp hf =>
    exact ((onlyChanges_setFb s _).mono fun c ⟨y, x, hc⟩ => hc ▸ hp y x).trans ((onlyChanges_setFlag _ _).of_eq hf)
  | store _ hb => exact (onlyChanges_writeBytes hs _ _).mono fun c ⟨q, hc, hq, hq'⟩ => hc ▸ hb q hq hq'
  | storeInc _ hb hi =>
    exact ((onlyChanges_writeBytes hs _ _).mono fun c ⟨q, hc, hq, hq'⟩ => hc ▸ hb q hq hq').trans
      ((onlyChanges_postIncrement _ _).mono fun c ⟨hc, hm⟩ => hc ▸ hi hm)
  | loadInc hv hi =>
    exact ((onlyChanges_loadV s _ _).mono fun c ⟨k, hc, hk⟩ => hc ▸ hv k hk).trans
      ((onlyChanges_postIncrement _ _).mono fun c ⟨hc, hm⟩ => hc ▸ hi hm)

theorem Effect.cfg_eq {P : Component → Prop} {s t : State} (h : Effect P s t) : t.cfg = s.cfg := by
  cases h with
  | call hu =>
    obtain ⟨_, rfl⟩ := State.push_some hu
    rfl
  | ret hu =>
    obtain ⟨_, _, rfl⟩ := State.pop_some hu
    rfl
  | skip | storeInc | loadInc => simp
  | _ => rfl

/-- Settles O52: the instruction's effect allows only what R36 lets it write. -/
theorem instructionsWriteOnlyWhatTheyMay : Obligations.InstructionsWriteOnlyWhatTheyMay :=
  fun _ _ _ hs h => (exec_effect h).onlyChanges hs

/-! ## The invariant (R40) -/

/-- The live entries after a push: the pushed word, bounded by hypothesis, on top of the old ones. -/
theorem State.push_inv {s t : State} {a : Word} (h : s.push a = some t) (hs : s.Inv) (ha : a.toNat ≤ 0x1000) :
    t.Inv := by
  obtain ⟨hmem, hpc, hstack⟩ := hs
  obtain ⟨hsp, rfl⟩ := State.push_some h
  refine ⟨hmem, hpc, fun j hj => ?_⟩
  simp only [Vector.get_eq_getElem, Vector.getElem_set]
  split
  · exact ha
  · have hjs : j.val < s.sp.val + 1 := hj
    exact hstack j (by omega)

/-- A pop yields a live entry, and leaves fewer. -/
theorem State.pop_inv {s t : State} {a : Word} (h : s.pop = some (a, t)) (hs : s.Inv) : t.Inv ∧ a.toNat ≤ 0x1000 := by
  obtain ⟨hmem, hpc, hstack⟩ := hs
  obtain ⟨hsp, rfl, rfl⟩ := State.pop_some h
  refine ⟨⟨hmem, hpc, fun j hj => hstack j ?_⟩, hstack _ (by simp only []; omega)⟩
  have hjs : j.val < s.sp.val - 1 := hj
  omega

theorem State.setPc_inv {s : State} (hs : s.Inv) {a : Word} (ha : a.toNat ≤ 0x10FE) : (s.setPc a).Inv := by
  obtain ⟨hmem, _, hstack⟩ := hs
  exact ⟨hmem, ha, hstack⟩

/-- An advance of `PC` from at most 0x1000 keeps the invariant. -/
theorem State.advancePc_inv {s : State} (hs : s.Inv) (hpc : s.pc.toNat ≤ 0x1000) : s.advancePc.Inv :=
  State.setPc_inv hs (by bv_omega)

theorem State.skipIf_inv {s : State} (hs : s.Inv) (hpc : s.pc.toNat ≤ 0x1000) (c : Bool) : (s.skipIf c).Inv := by
  cases c with
  | false => exact hs
  | true => exact State.advancePc_inv hs hpc

theorem State.writeBytes_inv {s : State} (hs : s.Inv) {a : Nat} {bs : List Byte} (ha : a + bs.length ≤ memSize) :
    (s.writeBytes a bs).Inv :=
  ⟨State.wf_writeBytes hs.1 a bs ha, hs.2⟩

theorem postIncrement_inv {s : State} (hs : s.Inv) (x : Reg) : (postIncrement s x).Inv := by
  unfold postIncrement
  split <;> exact hs

theorem State.loadV_inv {s : State} (hs : s.Inv) (x : Reg) (a : Nat) : (s.loadV x a).Inv :=
  ⟨hs.1, hs.2⟩

/-- An effect keeps the invariant when `PC` is at most 0x1000, as it is behind a fetched instruction. -/
theorem Effect.inv {P : Component → Prop} {s t : State} (h : Effect P s t) (hs : s.Inv) (hpc : s.pc.toNat ≤ 0x1000) :
    t.Inv := by
  cases h with
  | skip => exact State.skipIf_inv hs hpc _
  | jump _ ha => exact State.setPc_inv hs ha
  | call hu ha => exact State.setPc_inv (State.push_inv hu hs hpc) ha
  | ret hu =>
    obtain ⟨hinv, ha⟩ := State.pop_inv hu hs
    exact State.setPc_inv hinv (by omega)
  | store ha => exact State.writeBytes_inv hs ha
  | storeInc ha => exact postIncrement_inv (State.writeBytes_inv hs ha) _
  | loadInc => exact postIncrement_inv (State.loadV_inv hs _ _) _
  | _ => exact hs

theorem State.new_inv (cfg : CoreConfig) : (State.new cfg).Inv :=
  ⟨Memory.wf_nil, (by decide : (0x200 : Word).toNat ≤ 0x10FE), fun _ hj => absurd hj (Nat.not_lt_zero _)⟩

/-! ## The operations -/

theorem load_next {bytes : List Byte} {s t : State} (h : load bytes s = .next t) :
    bytes.length ≤ 3584 ∧ t = s.loaded bytes := by
  unfold load at h
  split at h
  · exact ⟨of_decide_eq_true ‹_›, (Host.Outcome.next.inj h).symm⟩
  · cases h

theorem load_of_fits {bytes : List Byte} (h : bytes.length ≤ 3584) (s : State) :
    load bytes s = .next (s.loaded bytes) :=
  if_pos (decide_eq_true h)

/-- A key event writes keys, registers and the mode only. -/
theorem setKeyState_fields (k : Key) (pressed : Bool) (s : State) :
    (setKeyState k pressed s).mem = s.mem ∧ (setKeyState k pressed s).pc = s.pc ∧
      (setKeyState k pressed s).stack = s.stack ∧ (setKeyState k pressed s).sp = s.sp ∧
      (setKeyState k pressed s).cfg = s.cfg := by
  unfold setKeyState deliverKey
  split
  · split <;> exact ⟨rfl, rfl, rfl, rfl, rfl⟩
  · exact ⟨rfl, rfl, rfl, rfl, rfl⟩

theorem State.afterStepError_inv {s : State} (hs : s.Inv) : s.afterStepError.Inv := by
  unfold State.afterStepError
  split
  · have hr := (inRange_iff _ _).mp ‹_›
    exact State.advancePc_inv hs (by omega)
  · exact hs

theorem State.afterStepError_cfg (s : State) : s.afterStepError.cfg = s.cfg := by
  unfold State.afterStepError
  split <;> rfl

theorem step_inv {s t : State} (h : step s = .next t) (hs : s.Inv) : t.Inv := by
  obtain ⟨_, _, rfl⟩ | ⟨_, hpc, i, _, hi⟩ := step_next h
  · exact hs
  · have hadv : s.advancePc.pc.toNat ≤ 0x1000 := by
      rw [State.advancePc_pc]
      bv_omega
    exact (exec_effect hi).inv (State.advancePc_inv hs (by omega)) hadv

theorem step_cfg {s t : State} (h : step s = .next t) : t.cfg = s.cfg := by
  obtain ⟨_, _, rfl⟩ | ⟨_, _, i, _, hi⟩ := step_next h
  · rfl
  · exact (exec_effect hi).cfg_eq

theorem perform_inv {op : Operation} {s t : State} (h : perform op s = .next t) (hs : s.Inv) : t.Inv := by
  cases op with
  | load bytes =>
    obtain ⟨hlen, rfl⟩ := load_next h
    obtain ⟨_, hpc, hstack⟩ := State.new_inv s.cfg
    exact ⟨State.wf_loaded s hlen, hpc, hstack⟩
  | step => exact step_inv h hs
  | tickTimers =>
    cases h
    exact hs
  | setKeyState k pressed =>
    cases h
    obtain ⟨hmem, hpc, hstack, hsp, hcfg⟩ := setKeyState_fields k pressed s
    rwa [State.Inv, State.background, hmem, hpc, hstack, hsp, hcfg]

theorem perform_cfg {op : Operation} {s t : State} (h : perform op s = .next t) : t.cfg = s.cfg := by
  cases op with
  | load bytes =>
    obtain ⟨_, rfl⟩ := load_next h
    rfl
  | step => exact step_cfg h
  | tickTimers =>
    cases h
    rfl
  | setKeyState k pressed =>
    cases h
    obtain ⟨_, _, _, _, hcfg⟩ := setKeyState_fields k pressed s
    exact hcfg

theorem stateAfterError_inv (op : Operation) {s : State} (hs : s.Inv) : (stateAfterError op s).Inv := by
  cases op with
  | step => exact State.afterStepError_inv hs
  | _ => exact hs

theorem stateAfterError_cfg (op : Operation) (s : State) : (stateAfterError op s).cfg = s.cfg := by
  cases op with
  | step => exact State.afterStepError_cfg s
  | _ => rfl

/-- What an operation under a fault policy that answers a next state did: it completed, or its error was passed over. -/
theorem performUnder_next {policy : FaultPolicy} {op : Operation} {s t : State}
    (h : performUnder policy op s = .next t) :
    perform op s = .next t ∨
      (policy = .skip ∧ (∃ e, perform op s = .fault e) ∧ t = stateAfterError op s) := by
  unfold performUnder at h
  split at h
  · rename_i e hp
    exact .inr ⟨rfl, ⟨e, hp⟩, (Host.Outcome.next.inj h).symm⟩
  · cases h
  · rename_i hp
    exact .inl (hp.trans h)
  · cases h

theorem performUnder_cfg {policy : FaultPolicy} {op : Operation} {s t : State}
    (h : performUnder policy op s = .next t) : t.cfg = s.cfg := by
  obtain hp | ⟨_, _, rfl⟩ := performUnder_next h
  · exact perform_cfg hp
  · exact stateAfterError_cfg op s

theorem performUnder_inv {policy : FaultPolicy} {op : Operation} {s t : State}
    (h : performUnder policy op s = .next t) (hs : s.Inv) : t.Inv := by
  obtain hp | ⟨_, _, rfl⟩ := performUnder_next h
  · exact perform_inv hp hs
  · exact stateAfterError_inv op hs

/-- Settles O57: an operation completes or leaves its error state, and both keep the invariant. -/
theorem stepKeepsTheInvariant : Obligations.StepKeepsTheInvariant :=
  fun _ _ _ _ hs h => ⟨performUnder_inv h hs, performUnder_cfg h⟩

/-- Settles O53, by induction on the schedule. -/
theorem configurationNeverChanges : Obligations.ConfigurationNeverChanges := by
  intro policy ops
  induction ops with
  | nil =>
    intro s t h
    cases h
    rfl
  | cons op ops ih =>
    intro s t h
    unfold runSchedule at h
    split at h
    · exact (ih _ _ h).trans (performUnder_cfg ‹_›)
    · cases h
    · cases h

/-- Settles O56: no byte is listed, `PC` is 0x200 and no return address is live. -/
theorem invariantHoldsAtReset : Obligations.InvariantHoldsAtReset :=
  ⟨State.new_inv defaultConfig, State.new_inv⟩

/-- Settles O58, by induction on the run: O56 at construction, O57 for each operation. -/
theorem reachableStatesMeetTheInvariant : Obligations.ReachableStatesMeetTheInvariant := by
  intro cfg s h
  induction h with
  | new => exact ⟨State.new_inv cfg, rfl⟩
  | perform op _ hop ih =>
    obtain ⟨hinv, hcfg⟩ := ih
    obtain ⟨hinv', hcfg'⟩ := stepKeepsTheInvariant .skip op _ _ hinv hop
    exact ⟨hinv', hcfg'.trans hcfg⟩

/-! ## Reset values -/

theorem State.new_getV (cfg : CoreConfig) (r : Reg) : (State.new cfg).getV r = 0 := by
  simp [State.new, State.getV, Vector.get_eq_getElem]

theorem State.new_getKey (cfg : CoreConfig) (k : Key) : (State.new cfg).getKey k = false := by
  simp [State.new, State.getKey, Vector.get_eq_getElem]

theorem State.new_stack_get (cfg : CoreConfig) (j : Fin 16) : (State.new cfg).stack.get j = 0 := by
  simp [State.new, Vector.get_eq_getElem]

theorem State.new_pixel (cfg : CoreConfig) (y : Fin 32) (x : Fin 64) : (State.new cfg).pixel y x = false :=
  FrameBuffer.pixel_clear y x

theorem resetByte_font (font : Font) {a : Nat} (h : a < 80) : resetByte font a = font[a] :=
  dif_pos h

theorem resetByte_fill (font : Font) {a : Nat} (h : 80 ≤ a) : resetByte font a = 0 :=
  dif_neg (by omega)

/-- Settles O47: each field of `State.new`, read. -/
theorem constructionResetsEverything : Obligations.ConstructionResetsEverything :=
  ⟨fun cfg => ⟨State.new_getV cfg, rfl, rfl, rfl, State.new_stack_get cfg, rfl, rfl, State.new_getKey cfg, rfl,
    State.new_pixel cfg, fun _ h => resetByte_font cfg.font h, fun _ h => resetByte_fill cfg.font h, rfl⟩, rfl⟩

/-- Settles O44: all but memory is as after construction, and memory reads as the program over the reset contents. -/
theorem loadResetsAndWritesTheProgram : Obligations.LoadResetsAndWritesTheProgram := by
  intro bytes s hlen
  refine ⟨s.loaded bytes, load_of_fits hlen s, rfl, State.wf_loaded s hlen, State.new_getV s.cfg, rfl, rfl, rfl,
    State.new_stack_get s.cfg, rfl, rfl, State.new_getKey s.cfg, rfl, State.new_pixel s.cfg, ?_, ?_, ?_, rfl⟩
  · intro k hk
    rw [State.loaded_readByte, dif_pos (by omega)]
    simp
  · intro a ha
    rw [State.loaded_readByte, dif_neg (by omega), resetByte_font _ ha]
  · intro a ha hout
    rw [State.loaded_readByte, dif_neg (by omega), resetByte_fill _ ha]

/-! ## The sound timer (R28) -/

/-- The two answers agree but for `ST`: both complete, or both raise the same error. -/
def AgreeButSt (r r' : Result) : Prop :=
  (∃ t b, r = .next t ∧ r' = .next (t.setSt b)) ∨ ∃ e, r = .fault e ∧ r' = .fault e

theorem AgreeButSt.next (t : State) (b : Byte) : AgreeButSt (.next t) (.next (t.setSt b)) :=
  .inl ⟨t, b, rfl, rfl⟩

theorem AgreeButSt.fault (e : Fault) : AgreeButSt (.fault e) (.fault e) :=
  .inr ⟨e, rfl, rfl⟩

theorem AgreeButSt.guard (base n : Nat) {r r' : Result} (h : AgreeButSt r r') :
    AgreeButSt (guardRange base n r) (guardRange base n r') := by
  unfold guardRange
  split
  · exact h
  · exact .fault _

theorem State.skipIf_setSt (s : State) (b : Byte) (c : Bool) : (s.setSt b).skipIf c = (s.skipIf c).setSt b := by
  cases c <;> rfl

theorem postIncrement_setSt (s : State) (b : Byte) (x : Reg) :
    postIncrement (s.setSt b) x = (postIncrement s x).setSt b := by
  unfold postIncrement
  rw [State.setSt_cfg]
  split <;> rfl

theorem State.push_setSt (s : State) (b : Byte) (a : Word) : (s.setSt b).push a = (s.push a).map (·.setSt b) := by
  by_cases h : s.sp.val < 16
  · rw [State.push_of_lt h, State.push_of_lt (s := s.setSt b) h]
    rfl
  · have hsp : s.sp.val = 16 := by omega
    rw [State.push_full hsp, State.push_full (s := s.setSt b) hsp]
    rfl

theorem State.pop_setSt (s : State) (b : Byte) :
    (s.setSt b).pop = s.pop.map fun p => (p.1, p.2.setSt b) := by
  rcases Nat.eq_zero_or_pos s.sp.val with h | h
  · rw [State.pop_empty h, State.pop_empty (s := s.setSt b) h]
    rfl
  · rw [State.pop_of_pos h, State.pop_of_pos (s := s.setSt b) h]
    rfl

theorem AgreeButSt.of_skipIf (s : State) (b : Byte) (c : Bool) :
    AgreeButSt (.next (s.skipIf c)) (.next ((s.setSt b).skipIf c)) := by
  rw [State.skipIf_setSt]
  exact .next _ b

theorem AgreeButSt.of_postIncrement (s : State) (b : Byte) (x : Reg) :
    AgreeButSt (.next (postIncrement s x)) (.next (postIncrement (s.setSt b) x)) := by
  rw [postIncrement_setSt]
  exact .next _ b

theorem State.loadV_setSt (s : State) (b : Byte) (x : Reg) (a : Nat) :
    (s.setSt b).loadV x a = (s.loadV x a).setSt b := rfl

/-- No instruction reads `ST`, and `LD ST, VX` alone writes it. -/
theorem exec_agreeButSt (i : Instr) (s : State) (b : Byte) : AgreeButSt (exec i s) (exec i (s.setSt b)) := by
  cases i with
  | ret =>
    rw [exec, exec, execRet, execRet, State.pop_setSt]
    cases s.pop with
    | none => exact .fault _
    | some p => exact .next (p.2.setPc p.1) b
  | call nnn =>
    rw [exec, exec, execCall, execCall, State.setSt_pc, State.push_setSt]
    cases s.push s.pc with
    | none => exact .fault _
    | some t => exact .next (t.setPc (zextAddr nnn)) b
  | seImm | sneImm | seReg | sneReg | skp | sknp => exact .of_skipIf s b _
  | drw x y n => exact .guard _ _ (.next _ b)
  | ldB x => exact .guard _ _ (.next _ b)
  | storeRegs x => exact .guard _ _ (.of_postIncrement (s.writeBytes s.base (s.regBytes x)) b x)
  | loadRegs x =>
    refine .guard _ _ ?_
    rw [State.loadV_setSt]
    exact .of_postIncrement (s.loadV x s.base) b x
  | ldStVx x => exact .next (s.setSt (s.getV x)) (s.getV x)
  | _ => exact .next _ b

/-- Settles O55: the fetch does not read `ST` either. -/
theorem soundTimerIsUnobservable : Obligations.SoundTimerIsUnobservable := by
  intro s b
  change AgreeButSt (step s) (step (s.setSt b))
  cases hm : s.mode with
  | awaitingKey r =>
    rw [step_waiting hm, step_waiting (s := s.setSt b) hm]
    exact .next s b
  | running =>
    rw [step_running hm, step_running (s := s.setSt b) hm]
    refine .guard _ _ ?_
    have hword : (s.setSt b).wordAt (s.setSt b).pc.toNat = s.wordAt s.pc.toNat := rfl
    rw [hword]
    cases hd : decode (s.wordAt s.pc.toNat) with
    | none =>
      rw [runWord_none hd, runWord_none hd]
      exact .fault _
    | some i =>
      rw [runWord_some hd, runWord_some hd]
      exact exec_agreeButSt i s.advancePc b

/-! ## Single instructions -/

theorem State.skipIf_pc_iff (s : State) {c : Bool} {p : Prop} [Decidable p] (h : c = true ↔ p) :
    (s.skipIf c).pc = if p then s.pc + 2 else s.pc := by
  simp only [State.skipIf_pc, h]

theorem byte_beq_iff (a b : Byte) : (a == b) = true ↔ a.toNat = b.toNat := by
  rw [beq_iff_eq, BitVec.toNat_inj]

theorem byte_bne_iff (a b : Byte) : (a != b) = true ↔ a.toNat ≠ b.toNat := by
  rw [bne_iff_ne]
  exact not_congr BitVec.toNat_inj.symm

theorem State.setV_getV_same (s : State) (r : Reg) (b : Byte) : (s.setV r b).getV r = b := by
  rw [State.setV_getV, if_pos rfl]

theorem glyphAddress_toNat (b : Byte) : (glyphAddress b).toNat = 5 * (b.toNat % 16) := by
  rw [glyphAddress, BitVec.toNat_ofNat, lowNibble, glyphBytes]
  omega

theorem State.soundActive_iff (s : State) : s.soundActive = true ↔ s.st ≠ 0 :=
  bne_iff_ne

/-- Settles O14: the jump writes `PC` only. -/
theorem jpGoesToNNN : Obligations.JpGoesToNNN := fun nnn s =>
  ⟨decode_nnn rfl rfl, _, rfl, zextAddr_toNat nnn, onlyChanges_setPc s _⟩

/-- Settles O17: each skip is `skipIf` of its condition. -/
theorem compareSkips : Obligations.CompareSkips := fun _ _ _ s =>
  ⟨⟨decode_xnn rfl (by bv_omega), _, rfl, s.skipIf_pc_iff (byte_beq_iff _ _), onlyChanges_skipIf s _⟩,
    ⟨decode_xnn rfl (by bv_omega), _, rfl, s.skipIf_pc_iff (byte_bne_iff _ _), onlyChanges_skipIf s _⟩,
    ⟨decode_xyn rfl (by bv_omega), _, rfl, s.skipIf_pc_iff (byte_beq_iff _ _), onlyChanges_skipIf s _⟩,
    ⟨decode_xyn rfl (by bv_omega), _, rfl, s.skipIf_pc_iff (byte_bne_iff _ _), onlyChanges_skipIf s _⟩⟩

/-- Settles O19: both are one register write. -/
theorem loadsIntoRegister : Obligations.LoadsIntoRegister := fun x _ _ s =>
  ⟨⟨decode_xnn rfl (by bv_omega), _, rfl, s.setV_getV_same x _, onlyChanges_setV s x _⟩,
    ⟨decode_xyn rfl (by bv_omega), _, rfl, s.setV_getV_same x _, onlyChanges_setV s x _⟩⟩

/-- Settles O20: one register write, of the sum of two bytes as a byte. -/
theorem addImmediateWrapsWithoutFlag : Obligations.AddImmediateWrapsWithoutFlag := by
  intro x nn s
  refine ⟨decode_xnn rfl (by bv_omega), _, rfl, ?_, onlyChanges_setV s x _⟩
  rw [State.setV_getV_same, BitVec.toNat_add]

/-- Settles O26: each is one write of `I`. -/
theorem indexRegisterResults : Obligations.IndexRegisterResults := by
  intro nnn x s
  refine ⟨⟨decode_nnn rfl rfl, _, rfl, zextAddr_toNat nnn, onlyChanges_setI s _⟩,
    ⟨decode_xnn rfl (by bv_omega), _, rfl, ?_, onlyChanges_setI s _⟩,
    ⟨decode_xnn rfl (by bv_omega), _, rfl, glyphAddress_toNat _, onlyChanges_setI s _⟩⟩
  rw [State.setI_i, BitVec.toNat_add, zextByte_toNat]

/-- Settles O31: the screen is replaced by the clear one. -/
theorem clsTurnsEveryPixelOff : Obligations.ClsTurnsEveryPixelOff :=
  ⟨decode_encode .cls, fun s => ⟨_, rfl, FrameBuffer.pixel_clear, onlyChanges_setFb s _⟩⟩

/-- Settles O36: each is one write of a register or a timer. -/
theorem timerTransfers : Obligations.TimerTransfers := fun x s =>
  ⟨⟨decode_xnn rfl (by bv_omega), _, rfl, s.setV_getV_same x _, onlyChanges_setV s x _⟩,
    ⟨decode_xnn rfl (by bv_omega), _, rfl, rfl, onlyChanges_setDt s _⟩,
    ⟨decode_xnn rfl (by bv_omega), _, rfl, rfl, State.soundActive_iff _, onlyChanges_setSt s _⟩⟩

/-! ## Drawing (R191, R192) -/

/-- Where a sprite bit lands, as the spec's coordinates. -/
theorem spriteTarget_eq_some_iff {clip : Bool} {x0 y0 : Byte} {row col : Nat} {py : Fin 32} {px : Fin 64} :
    spriteTarget clip x0 y0 row col = some (py, px) ↔
      if clip then x0.toNat % 64 + col = px.val ∧ y0.toNat % 32 + row = py.val
      else (x0.toNat + col) % 64 = px.val ∧ (y0.toNat + row) % 32 = py.val := by
  unfold spriteTarget
  cases clip with
  | false => simp [Fin.ext_iff, and_comm]
  | true =>
    simp only [if_true]
    split
    · simp [Fin.ext_iff, and_comm]
    · simp only [reduceCtorEq, false_iff]
      omega

/-- No two bits of a sprite land on the same pixel: the screen is as wide as 64 columns and as high as 32 rows. -/
theorem spriteTarget_inj {clip : Bool} {x0 y0 : Byte} {row row' col col' : Nat} {p : Fin 32 × Fin 64}
    (hrow : row < 32) (hrow' : row' < 32) (hcol : col < 64) (hcol' : col' < 64)
    (h : spriteTarget clip x0 y0 row col = some p) (h' : spriteTarget clip x0 y0 row' col' = some p) :
    row = row' ∧ col = col' := by
  rw [spriteTarget_eq_some_iff (py := p.1) (px := p.2)] at h h'
  cases clip with
  | false =>
    rw [if_neg Bool.false_ne_true] at h h'
    omega
  | true =>
    rw [if_pos rfl] at h h'
    omega

/-- A fold that flips the observed bit at the elements that satisfy `P`, of which the list has at most one. -/
theorem foldl_flip {α β : Type} {f : β → α → β} {g : β → Bool} {P : α → Bool} {l : List α}
    (hf : ∀ b, ∀ a ∈ l, g (f b a) = (g b ^^ P a)) (hl : l.Pairwise fun a a' => P a = true → P a' = false) (b : β) :
    g (l.foldl f b) = (g b ^^ l.any P) := by
  induction l generalizing b with
  | nil => simp
  | cons a l ih =>
    obtain ⟨ha, hl⟩ := List.pairwise_cons.mp hl
    rw [List.foldl_cons, ih (fun b a' h => hf b a' (List.mem_cons_of_mem a h)) hl, hf b a List.mem_cons_self,
      List.any_cons]
    cases hP : P a with
    | false => simp
    | true =>
      have hrest : l.any P = false := List.any_eq_false.mpr fun a' hmem => by simp [ha a' hmem hP]
      simp [hrest]

section
variable (clip : Bool) (x0 y0 : Byte) (p : Fin 32 × Fin 64)

/-- The bit in column `col` of the byte `b`, drawn in sprite row `row`, is set and lands on the pixel `p`. -/
def bitHits (row : Nat) (b : Byte) (col : Nat) : Bool :=
  spriteBit b col && decide (spriteTarget clip x0 y0 row col = some p)

/-- Some bit of the byte `b`, drawn in sprite row `row`, is set and lands on the pixel `p`. -/
def rowHits (row : Nat) (b : Byte) : Bool := (List.range 8).any (bitHits clip x0 y0 p row b)

variable {clip x0 y0 p}

theorem bitHits_iff {row : Nat} {b : Byte} {col : Nat} :
    bitHits clip x0 y0 p row b col = true ↔ spriteBit b col = true ∧ spriteTarget clip x0 y0 row col = some p := by
  rw [bitHits, Bool.and_eq_true, decide_eq_true_iff]

theorem rowHits_iff {row : Nat} {b : Byte} :
    rowHits clip x0 y0 p row b = true ↔
      ∃ col < 8, spriteBit b col = true ∧ spriteTarget clip x0 y0 row col = some p := by
  simp only [rowHits, List.any_eq_true, List.mem_range, bitHits_iff]

theorem pixel_blitBit (row col : Nat) (acc : FrameBuffer × Bool) :
    FrameBuffer.pixel (blitBit clip x0 y0 row col acc).1 p.1 p.2 =
      (FrameBuffer.pixel acc.1 p.1 p.2 ^^ decide (spriteTarget clip x0 y0 row col = some p)) := by
  unfold blitBit
  split
  · simp [‹spriteTarget clip x0 y0 row col = none›]
  · rename_i y x ht
    rw [ht, FrameBuffer.pixel_toggle]
    by_cases hp : (y, x) = p
    · subst hp
      simp
    · have hp' : ¬(p.1 = y ∧ p.2 = x) := fun h => hp (Prod.ext h.1.symm h.2.symm)
      simp [hp, hp']

/-- A row toggles `p` when one of its bits lands there; no two do. -/
theorem pixel_blitRow {row : Nat} (hrow : row < 32) (b : Byte) (acc : FrameBuffer × Bool) :
    FrameBuffer.pixel (blitRow clip x0 y0 row b acc).1 p.1 p.2 =
      (FrameBuffer.pixel acc.1 p.1 p.2 ^^ rowHits clip x0 y0 p row b) := by
  refine foldl_flip (g := fun acc => FrameBuffer.pixel acc.1 p.1 p.2) (fun acc col _ => ?_) ?_ acc
  · unfold bitHits
    split
    · rw [pixel_blitBit, ‹spriteBit b col = true›, Bool.true_and]
    · simp [‹¬spriteBit b col = true›]
  · refine List.pairwise_lt_range.imp_of_mem fun {c c'} hc hc' hlt hhit => Bool.eq_false_iff.mpr fun hhit' => ?_
    have hc : c < 8 := List.mem_range.mp hc
    have hc' : c' < 8 := List.mem_range.mp hc'
    have := spriteTarget_inj hrow hrow (by omega) (by omega) (bitHits_iff.mp hhit).2 (bitHits_iff.mp hhit').2
    omega

theorem blitRows_eq_foldl (row : Nat) (bs : List Byte) (acc : FrameBuffer × Bool) :
    blitRows clip x0 y0 row bs acc = (bs.zipIdx row).foldl (fun acc r => blitRow clip x0 y0 r.2 r.1 acc) acc := by
  induction bs generalizing row acc with
  | nil => rfl
  | cons b bs ih => rw [blitRows, ih, List.zipIdx_cons, List.foldl_cons]

/-- A sprite of at most 32 rows toggles `p` when one of its rows hits it; no two do. -/
theorem pixel_blitRows {bs : List Byte} (hbs : bs.length ≤ 32) (acc : FrameBuffer × Bool) :
    FrameBuffer.pixel (blitRows clip x0 y0 0 bs acc).1 p.1 p.2 =
      (FrameBuffer.pixel acc.1 p.1 p.2 ^^ bs.zipIdx.any fun r => rowHits clip x0 y0 p r.2 r.1) := by
  have hlt : ∀ r ∈ bs.zipIdx, r.2 < 32 := fun r hr => by
    have := List.snd_lt_of_mem_zipIdx hr
    omega
  have hpair : bs.zipIdx.Pairwise fun r r' => r.2 < r'.2 := by
    rw [← List.pairwise_map (f := Prod.snd), List.zipIdx_map_snd]
    exact List.pairwise_lt_range'
  rw [blitRows_eq_foldl]
  refine foldl_flip (g := fun acc => FrameBuffer.pixel acc.1 p.1 p.2) (fun acc r hr => pixel_blitRow (hlt r hr) r.1 acc)
    (hpair.imp_of_mem fun {r r'} hr hr' hrr' hhit => Bool.eq_false_iff.mpr fun hhit' => ?_) acc
  obtain ⟨c, hc, -, ht⟩ := rowHits_iff.mp hhit
  obtain ⟨c', hc', -, ht'⟩ := rowHits_iff.mp hhit'
  have := spriteTarget_inj (hlt r hr) (hlt r' hr') (by omega) (by omega) ht ht'
  omega

end

theorem State.mem_zipIdx_readBytes {s : State} {a n k : Nat} {b : Byte} :
    (b, k) ∈ (s.readBytes a n).zipIdx ↔ k < n ∧ s.readByte (a + k) = b := by
  rw [List.mk_mem_zipIdx_iff_getElem?, State.readBytes, List.getElem?_map]
  by_cases hk : k < n <;> simp [hk]

/-- A row of the sprite hits a pixel exactly when the sprite covers it. -/
theorem any_rowHits_iff_spriteCovers {s : State} {x y : Reg} {n : Nibble} {py : Fin 32} {px : Fin 64} :
    ((s.readBytes s.base n.toNat).zipIdx.any fun r =>
        rowHits s.cfg.q.spriteClip (s.getV x) (s.getV y) (py, px) r.2 r.1) = true ↔ SpriteCovers s x y n py px := by
  simp only [List.any_eq_true, Prod.exists, State.mem_zipIdx_readBytes, rowHits_iff, spriteTarget_eq_some_iff]
  constructor
  · rintro ⟨b, row, ⟨hrow, rfl⟩, col, hcol, hbit, ht⟩
    exact ⟨row, col, hrow, hcol, hbit, ht⟩
  · rintro ⟨row, col, hrow, hcol, hbit, ht⟩
    exact ⟨_, row, ⟨hrow, rfl⟩, col, hcol, hbit, ht⟩

/-- A draw toggles the covered pixels and no other. -/
theorem pixel_drawSprite (s : State) (x y : Reg) (n : Nibble) (py : Fin 32) (px : Fin 64) :
    (SpriteCovers s x y n py px → FrameBuffer.pixel (drawSprite s x y n.toNat).1 py px = !s.pixel py px) ∧
      (¬SpriteCovers s x y n py px → FrameBuffer.pixel (drawSprite s x y n.toNat).1 py px = s.pixel py px) := by
  have hlen : (s.readBytes s.base n.toNat).length ≤ 32 := by
    rw [State.readBytes, List.length_map, List.length_range]
    omega
  have hpix := pixel_blitRows (p := (py, px)) (clip := s.cfg.q.spriteClip) (x0 := s.getV x) (y0 := s.getV y) hlen
    (s.fb, false)
  refine ⟨fun hc => ?_, fun hc => ?_⟩
  · rw [any_rowHits_iff_spriteCovers.mpr hc, Bool.xor_true] at hpix
    exact hpix
  · rw [Bool.eq_false_iff.mpr (mt any_rowHits_iff_spriteCovers.mp hc), Bool.xor_false] at hpix
    exact hpix

/-- Settles O32: the range check passes, the draw toggles the covered pixels, and the flag is written last. -/
theorem drawTogglesTheCoveredPixels : Obligations.DrawTogglesTheCoveredPixels := by
  intro x y n s hrange
  have hr : n.toNat = 0 ∨ s.base + n.toNat ≤ 4096 := hrange.imp_left fun hn : n = 0 => by rw [hn]; rfl
  refine ⟨decode_xyn rfl (by bv_omega), _, guardRange_of_inRange hr _,
    fun py px => (pixel_drawSprite s x y n py px).1, fun py px => (pixel_drawSprite s x y n py px).2, ?_⟩
  exact ((onlyChanges_setFb s _).mono fun _ h => .inr h).trans ((onlyChanges_setFlag _ _).of_eq (.inl rfl))

end Sys2Proof.Machine
end

section
/-! SUPPORT. Proofs of the statements about memory: read after write, stores and loads that are fetched, and accesses
outside memory. -/

namespace Sys2Proof.Machine

/-! ## Reading what was stored or loaded -/

theorem onlyChanges_writeByte {s : State} (hs : s.mem.wf s.background) (a : Nat) (b : Byte) :
    OnlyChanges (· = .byte a) s (s.writeByte a b) := by
  intro c hc
  cases c with
  | byte q =>
    have hq : q ≠ a := fun h => hc (h ▸ rfl)
    exact (State.writeByte_readByte hs a b q).trans (if_neg hq)
  | _ => rfl

/-- The k-th byte of a register store is `V[k]` (R174). -/
theorem State.writeBytes_regBytes_readByte {s : State} (hs : s.mem.wf s.background) (a : Nat) {x k : Reg}
    (hk : k ≤ x) : (s.writeBytes a (s.regBytes x)).readByte (a + k.val) = s.getV k := by
  have hlen : k.val < (s.regBytes x).length := by
    rw [State.length_regBytes]
    exact Nat.lt_succ_of_le hk
  rw [State.writeBytes_readByte hs, dif_pos (by omega)]
  simp [State.regBytes, State.getV, Vector.get_eq_getElem]

/-- A store of at least two registers puts the word `V[0] ++ V[1]` at its base (R64, R174). -/
theorem State.wordAt_writeBytes_regBytes {s : State} (hs : s.mem.wf s.background) (a : Nat) {x : Reg}
    (hx : 1 ≤ x.val) : (s.writeBytes a (s.regBytes x)).wordAt a = wordOfBytes (s.getV 0) (s.getV 1) :=
  congrArg₂ wordOfBytes (State.writeBytes_regBytes_readByte hs a (k := 0) (Fin.zero_le x))
    (State.writeBytes_regBytes_readByte hs a (k := 1) hx)

theorem postIncrement_wordAt (s : State) (x : Reg) (a : Nat) : (postIncrement s x).wordAt a = s.wordAt a := by
  simp only [State.wordAt, postIncrement_readByte]

/-- The first two bytes of a loaded program are the word at the entry point (R64, R77). -/
theorem State.wordAt_loaded (s : State) (hi lo : Byte) (rest : List Byte) :
    (s.loaded (hi :: lo :: rest)).wordAt 0x200 = wordOfBytes hi lo := by
  have hlen : (hi :: lo :: rest).length = rest.length + 2 := rfl
  rw [State.wordAt, State.loaded_readByte, State.loaded_readByte, dif_pos (by omega), dif_pos (by omega)]
  rfl

/-- A running step on a legal word is `exec` of its instruction behind the fetch (R242). -/
theorem step_of_decode {s : State} {i : Instr} (hmode : s.mode = .running) (hpc : s.pc.toNat ≤ 0xFFE)
    (hi : decode (s.wordAt s.pc.toNat) = some i) : step s = exec i s.advancePc := by
  rw [step_fetch hmode hpc, runWord_some hi]

/-! ## The statements -/

/-- Settles O12: memory's read-after-write law, read at the written address and at the others. -/
theorem readAfterWrite : Obligations.ReadAfterWrite := fun _ a b hs ha =>
  ⟨(State.writeByte_readByte hs a b a).trans (if_pos rfl), onlyChanges_writeByte hs a b,
    State.wf_writeByte hs (Nat.lt_succ_of_le ha) b⟩

/-- Settles O10: the store completes with `V[0] ++ V[1]` at `PC`, and the post-increment changes neither memory nor
`PC`. -/
theorem storedInstructionIsFetchedNext : Obligations.StoredInstructionIsFetchedNext := by
  intro s x i hs hmode hipc hx hrange hi
  have hbase : s.base = s.pc.toNat := congrArg BitVec.toNat hipc
  have hin : s.base + (x.val + 1) ≤ 4096 := Nat.succ_le_succ hrange
  refine ⟨postIncrement (s.writeBytes s.base (s.regBytes x)) x, guardRange_of_inRange (.inr hin) _,
    step_of_decode ?_ ?_ ?_⟩
  · rw [postIncrement_mode, State.writeBytes_mode, hmode]
  · rw [postIncrement_pc, State.writeBytes_pc]
    omega
  · rw [postIncrement_pc, State.writeBytes_pc, postIncrement_wordAt, ← hbase,
      State.wordAt_writeBytes_regBytes hs _ hx, hi]

/-- Settles O46: the loaded core runs, its `PC` is 0x200 and the program's first word stands there. -/
theorem loadedProgramRunsFromItsFirstWord : Obligations.LoadedProgramRunsFromItsFirstWord := by
  intro hi lo rest s i hlen hdec
  have hword : decode ((s.loaded (hi :: lo :: rest)).wordAt 0x200) = some i := by
    rw [State.wordAt_loaded, hdec]
  have hpc : (0x200 : Word).toNat ≤ 0xFFE := by decide
  exact ⟨s.loaded (hi :: lo :: rest), load_of_fits (bytes := hi :: lo :: rest) hlen s, step_of_decode rfl hpc hword⟩

/-- Settles O30: each access is guarded by the check of its own range, which is empty for a sprite of no rows. -/
theorem accessOutsideMemoryRaises : Obligations.AccessOutsideMemoryRaises := by
  intro x y n s
  refine ⟨fun h => guardRange_of_outside (by decide) (by omega) _, fun h => ?_, fun hn h => ?_,
    _, guardRange_of_inRange (base := s.base) (n := 0) (.inl rfl) _⟩
  · have hout : 4096 < s.base + (x.val + 1) := Nat.succ_lt_succ h
    exact ⟨guardRange_of_outside x.val.succ_ne_zero hout _, guardRange_of_outside x.val.succ_ne_zero hout _⟩
  · exact guardRange_of_outside (fun h0 => hn (BitVec.eq_of_toNat_eq h0)) h _

end Sys2Proof.Machine
end

section
/-! SUPPORT. Proofs of the statements about decoding and encoding: the two round trips and the illegal words. -/

namespace Sys2Proof.Machine

/-! ## A word put together from its fields

A word whose fixed fields are those of a format is the word of that format with the word's own operand fields (R91,
R92). -/

theorem wordNNN_fields {w : Word} {op : Nibble} (hop : (opField w).toNat = op.toNat) : wordNNN op (nnnField w) = w := by
  rw [Laws.opField_toNat] at hop
  apply BitVec.eq_of_toNat_eq
  rw [Laws.wordNNN_toNat, Laws.nnnField_toNat]
  omega

theorem wordXNN_fields {w : Word} {op : Nibble} {nn : Byte} (hop : (opField w).toNat = op.toNat)
    (hnn : (nnField w).toNat = nn.toNat) : wordXNN op (xField w) nn = w := by
  rw [Laws.opField_toNat] at hop
  rw [Laws.nnField_toNat] at hnn
  apply BitVec.eq_of_toNat_eq
  rw [Laws.wordXNN_toNat, Laws.xField_val]
  omega

theorem wordXYN_fields {w : Word} {op n : Nibble} (hop : (opField w).toNat = op.toNat)
    (hn : (nField w).toNat = n.toNat) : wordXYN op (xField w) (yField w) n = w := by
  rw [Laws.opField_toNat] at hop
  rw [Laws.nField_toNat] at hn
  apply BitVec.eq_of_toNat_eq
  rw [Laws.wordXYN_toNat, Laws.xField_val, Laws.yField_val]
  omega

/-! ## Encoding inverts decoding, for the families with a sub-operation

The matched sub-operation is the fixed field of the instruction's word. -/

theorem encode_of_decodeArith {w : Word} {i : Instr} (hop : (opField w).toNat = 0x8) (h : decodeArith w = some i) :
    encode i = w := by
  unfold decodeArith at h
  split at h <;> cases h <;> exact wordXYN_fields hop ‹_›

theorem encode_of_decodeKey {w : Word} {i : Instr} (hop : (opField w).toNat = 0xE) (h : decodeKey w = some i) :
    encode i = w := by
  unfold decodeKey at h
  split at h <;> cases h <;> exact wordXNN_fields hop ‹_›

theorem encode_of_decodeMisc {w : Word} {i : Instr} (hop : (opField w).toNat = 0xF) (h : decodeMisc w = some i) :
    encode i = w := by
  unfold decodeMisc at h
  split at h <;> cases h <;> exact wordXNN_fields hop ‹_›

/-! ## The sub-operations that are none (R96) -/

theorem nField_eq_zero_iff (w : Word) : nField w = 0#4 ↔ w.toNat % 16 = 0 := by
  rw [← BitVec.toNat_inj, Laws.nField_toNat]
  rfl

theorem decodeArith_eq_none_iff (w : Word) :
    decodeArith w = none ↔ w.toNat % 16 ∈ [0x8, 0x9, 0xA, 0xB, 0xC, 0xD, 0xF] := by
  unfold decodeArith
  rw [Laws.nField_toNat]
  split
  case h_10 => simp only [imp_false, List.mem_cons, List.not_mem_nil, true_iff] at *; omega
  all_goals simp [*]

theorem decodeKey_eq_none_iff (w : Word) : decodeKey w = none ↔ w.toNat % 256 ∉ [0x9E, 0xA1] := by
  unfold decodeKey
  rw [Laws.nnField_toNat]
  split <;> simp_all

theorem decodeMisc_eq_none_iff (w : Word) :
    decodeMisc w = none ↔ w.toNat % 256 ∉ [0x07, 0x0A, 0x15, 0x18, 0x1E, 0x29, 0x33, 0x55, 0x65] := by
  unfold decodeMisc
  rw [Laws.nnField_toNat]
  split <;> simp_all

/-! ## The statements -/

/-- Settles O2: the two bytes put together are the word again, and decoding inverts encoding. -/
theorem decodeOfEncodeIsTheInstruction : Obligations.DecodeOfEncodeIsTheInstruction := by
  intro i rest
  simp only [encodeBytes, bytesOfWord, List.cons_append, List.nil_append, decodeBytes, Laws.wordOfBytes_bytesOfWord,
    decode_encode]

/-- Settles O3: family by family, grouped by format, the word is put together from the fields the decoder matched and
the operand fields it read (R94). -/
theorem legalWordIsTheWordOfItsInstruction : Obligations.LegalWordIsTheWordOfItsInstruction := by
  intro w i h
  unfold decode at h
  split at h
  -- family 0
  case h_1 =>
    split at h
    case isTrue hw => cases h; exact hw.symm
    case isFalse =>
      split at h
      case isTrue hw => cases h; exact hw.symm
      case isFalse => cases h
  -- format NNN: families 1, 2, A, B
  case h_2 hop | h_3 hop | h_11 hop | h_12 hop => cases h; exact wordNNN_fields hop
  -- format XNN: families 3, 4, 6, 7, C
  case h_4 hop | h_5 hop | h_7 hop | h_8 hop | h_13 hop => cases h; exact wordXNN_fields hop rfl
  -- format XY: families 5, 9
  case h_6 hop | h_10 hop =>
    split at h
    case isTrue hn => cases h; exact wordXYN_fields hop (congrArg BitVec.toNat hn)
    case isFalse => cases h
  case h_9 hop => exact encode_of_decodeArith hop h
  -- format XYN: family D
  case h_14 hop => cases h; exact wordXYN_fields hop rfl
  case h_15 hop => exact encode_of_decodeKey hop h
  case h_16 hop => exact encode_of_decodeMisc hop h
  case h_17 => cases h

/-- Settles O4: the family selects its own group of R96, and a family without a group is legal throughout. -/
theorem illegalWordsAreThoseListed : Obligations.IllegalWordsAreThoseListed := by
  intro w
  unfold decode
  rw [Laws.opField_toNat]
  split
  case h_1 hop => simp [hop, ← BitVec.toNat_inj, ite_eq_iff]
  case h_6 hop | h_10 hop => simp [hop, nField_eq_zero_iff]
  case h_9 hop => simp [hop, decodeArith_eq_none_iff]
  case h_15 hop => simp [hop, decodeKey_eq_none_iff]
  case h_16 hop => simp [hop, decodeMisc_eq_none_iff]
  -- a family is a number below 16
  case h_17 => exfalso; simp only [imp_false] at *; omega
  all_goals simp [*]

/-- Settles O1: the decoder evaluated at each of the thirteen words. -/
theorem wordsOfTheSpecDecode : Obligations.WordsOfTheSpecDecode := by
  unfold Obligations.WordsOfTheSpecDecode
  decide

end Sys2Proof.Machine
end

section
/-! SUPPORT. Proofs of the statements about control transfer: return, call, their round trip, the jump to itself and the
jump with an offset. -/

namespace Sys2Proof.Machine

/-! ## Call and return by the index of the stack slot (R121, R123) -/

theorem exec_ret_of_empty {s : State} (h : s.sp.val = 0) : exec .ret s = .fault .stackUnderflow := by
  rw [exec, execRet, State.pop_empty h, raise]

theorem exec_ret_of_pop {s t : State} {a : Word} (h : s.pop = some (a, t)) : exec .ret s = .next (t.setPc a) := by
  rw [exec, execRet, h]

theorem exec_call_of_full {s : State} (h : s.sp.val = 16) (nnn : Addr12) :
    exec (.call nnn) s = .fault .stackOverflow := by
  rw [exec, execCall, State.push_full h, raise]

theorem exec_call_of_push {s t : State} (h : s.push s.pc = some t) (nnn : Addr12) :
    exec (.call nnn) s = .next (t.setPc (zextAddr nnn)) := by
  rw [exec, execCall, h]

/-- With `j + 1` live entries a pop yields the slot `j`. -/
theorem State.pop_eq_some {s : State} {j : Fin 16} (h : s.sp.val = j.val + 1) :
    ∃ t, s.pop = some (s.stack.get j, t) ∧ t.sp.val = j.val := by
  have hj : s.sp.val - 1 = j.val := by omega
  have hpop := State.pop_of_pos (s := s) (by omega)
  simp only [hj] at hpop
  exact ⟨_, hpop, rfl⟩

/-- With `j` live entries a push fills the slot `j`. -/
theorem State.push_eq_some {s : State} {j : Fin 16} (h : s.sp.val = j.val) (a : Word) :
    ∃ t, s.push a = some t ∧ t.stack.get j = a ∧ t.sp.val = j.val + 1 := by
  refine ⟨_, State.push_of_lt (h ▸ j.isLt) a, ?_, congrArg (· + 1) h⟩
  simp [Vector.get_eq_getElem, h]

/-- Settles O13: the pop writes `SP` only and the jump to the popped entry `PC` only. -/
theorem retPopsTheReturnAddress : Obligations.RetPopsTheReturnAddress := by
  refine ⟨decode_encode .ret, fun s => ⟨exec_ret_of_empty, fun j hj => ?_⟩⟩
  obtain ⟨t, hpop, hsp⟩ := State.pop_eq_some hj
  exact ⟨_, exec_ret_of_pop hpop, rfl, hsp,
    ((onlyChanges_of_pop hpop).of_eq (by simp)).trans ((onlyChanges_setPc t _).of_eq (by simp))⟩

/-- Settles O15: the push writes the slot `SP` and `SP`, and the jump `PC` only. -/
theorem callPushesTheAdvancedPc : Obligations.CallPushesTheAdvancedPc := by
  refine fun nnn s => ⟨decode_nnn rfl rfl, fun h => exec_call_of_full h nnn, fun j hj => ?_⟩
  obtain ⟨t, hpush, hslot, hsp⟩ := State.push_eq_some hj s.pc
  refine ⟨_, exec_call_of_push hpush nnn, hslot, hsp, zextAddr_toNat nnn,
    ((onlyChanges_of_push hpush).mono ?_).trans ((onlyChanges_setPc t _).of_eq (by simp))⟩
  rintro c (rfl | ⟨k, rfl, hk⟩)
  · simp
  · have hkj : k = j := Fin.ext (hk.trans hj)
    simp [hkj]

/-- Settles O16: the call pushes onto the slot `SP`, the return pops that slot, and neither writes a slot below it. -/
theorem callThenRetRoundTrip : Obligations.CallThenRetRoundTrip := by
  intro nnn s t h
  obtain ⟨-, hfull, hcall⟩ := callPushesTheAdvancedPc nnn s
  have hlt : s.sp.val < 16 := by
    by_contra hge
    rw [hfull (by omega)] at h
    cases h
  obtain ⟨t', ht', hslot, hsp, -, hframe⟩ := hcall ⟨s.sp.val, hlt⟩ rfl
  obtain rfl : t' = t := Host.Outcome.next.inj (ht'.symm.trans h)
  obtain ⟨-, hret⟩ := retPopsTheReturnAddress
  obtain ⟨-, hpop⟩ := hret t'
  obtain ⟨u, hu, hupc, husp, huframe⟩ := hpop _ hsp
  refine ⟨u, hu, hupc.trans hslot, Fin.ext husp, fun k hk => ?_⟩
  have hkj : k ≠ ⟨s.sp.val, hlt⟩ := Fin.ne_of_lt hk
  have hcallKeeps : t'.stack.get k = s.stack.get k := hframe (.stackSlot k) (by simp [hkj])
  have hretKeeps : u.stack.get k = t'.stack.get k := huframe (.stackSlot k) (by simp)
  exact hretKeeps.trans hcallKeeps

/-! ## Jumps (R122, R128) -/

theorem zextAddr_eq_of_toNat_eq {nnn : Addr12} {a : Word} (h : nnn.toNat = a.toNat) : zextAddr nnn = a :=
  BitVec.eq_of_toNat_eq ((zextAddr_toNat nnn).trans h)

theorem State.setPc_pc_self (s : State) : s.setPc s.pc = s := rfl

theorem State.advancePc_setPc (s : State) (a : Word) : s.advancePc.setPc a = s.setPc a := rfl

/-- Settles O11: the jump puts back the `PC` that the fetch advanced (R252). -/
theorem selfLoopIsAFixedPoint : Obligations.SelfLoopIsAFixedPoint := by
  intro s nnn hmode hpc hdec hself
  have htarget : zextAddr nnn = s.pc := zextAddr_eq_of_toNat_eq hself
  rw [step_of_decode hmode hpc hdec, exec, execJp, htarget, State.advancePc_setPc, State.setPc_pc_self]

theorem nnnX_val (nnn : Addr12) : (nnnX nnn).val = nnn.toNat / 256 := by
  have hX : (nnnX nnn).val = (nnn.extractLsb' 8 4).toNat := rfl
  rw [hX, BitVec.extractLsb'_toNat, Nat.shiftRight_eq_div_pow]
  omega

theorem nnnNN_toNat (nnn : Addr12) : (nnnNN nnn).toNat = nnn.toNat % 256 := by
  rw [nnnNN, BitVec.extractLsb'_toNat, Nat.shiftRight_zero]

/-- The target of `BNNN` as a number: neither sum reaches 2^16. -/
theorem jumpTarget_toNat (s : State) (nnn : Addr12) :
    (jumpTarget s nnn).toNat = if s.cfg.q.jumpOffset = false then nnn.toNat + (s.getV 0).toNat
      else (s.getV (nnnX nnn)).toNat + nnn.toNat % 256 := by
  cases hq : s.cfg.q.jumpOffset with
  | false =>
    rw [jumpTarget, hq, if_neg Bool.false_ne_true, if_pos rfl, BitVec.toNat_add, zextAddr_toNat, zextByte_toNat]
    omega
  | true =>
    rw [jumpTarget, hq, if_pos rfl, if_neg Bool.false_ne_true.symm, BitVec.toNat_add, zextByte_toNat,
      zextByte_toNat, nnnNN_toNat]
    omega

/-- Settles O18: the jump writes `PC` only, with the unwrapped sum. -/
theorem jumpWithOffset : Obligations.JumpWithOffset := by
  intro nnn x s hx
  obtain rfl : nnnX nnn = x := Fin.ext ((nnnX_val nnn).trans hx.symm)
  exact ⟨decode_nnn rfl rfl, _, rfl, jumpTarget_toNat s nnn, onlyChanges_setPc s _⟩

end Sys2Proof.Machine
end

section
/-! SUPPORT. Logic, arithmetic with a flag, shifts and random (R143 to R152): what a flagged result leaves in its two
registers and in the rest of the state, then each instruction by its result and its flag. -/

namespace Sys2Proof.Machine

/-! ## A result, then its flag (R152) -/

/-- Two updates that each write one piece write those two. -/
theorem OnlyChanges.pair {c d : Component} {s t u : State} (h : OnlyChanges (· = c) s t) (h' : OnlyChanges (· = d) t u) :
    OnlyChanges (· ∈ [c, d]) s u :=
  (h.of_eq List.mem_cons_self).trans (h'.of_eq (List.mem_cons_of_mem c List.mem_cons_self))

theorem flagByte_toNat (c : Bool) : (flagByte c).toNat = c.toNat := by
  cases c <;> rfl

section
variable (s : State) (x : Reg) (b : Byte) (c : Bool)

/-- The result survives the flag write when its register is not `VF`. -/
theorem State.setResultFlag_getV_dest (hx : x ≠ vf) : (s.setResultFlag x b c).getV x = b := by
  rw [State.setResultFlag_getV, if_neg hx, if_pos rfl]

/-- The flag is written last, so it is what `VF` holds even when the result went there (D10). -/
theorem State.setResultFlag_vf_toNat : ((s.setResultFlag x b c).getV vf).toNat = c.toNat := by
  rw [State.setResultFlag_getV, if_pos rfl, flagByte_toNat]

theorem onlyChanges_setResultFlag : OnlyChanges (· ∈ [.v x, .v vf]) s (s.setResultFlag x b c) :=
  (onlyChanges_setV s x b).pair (onlyChanges_setFlag (s.setV x b) c)

end

/-! ## Results and flags as numbers -/

theorem carry_toNat (a b : Byte) : (carry a b).toNat = if a.toNat + b.toNat > 255 then 1 else 0 :=
  Bool.cond_decide _ _ _

theorem notBorrow_toNat (a b : Byte) : (notBorrow a b).toNat = if a.toNat ≥ b.toNat then 1 else 0 :=
  Bool.cond_decide _ _ _

theorem byte_sub_toNat (a b : Byte) : ((a - b).toNat : Int) = (a.toNat - b.toNat : Int) % 256 := by
  rw [BitVec.toNat_sub]
  omega

theorem shiftedOutRight_toNat (b : Byte) : (shiftedOutRight b).toNat = b.toNat % 2 := by
  rw [shiftedOutRight, BitVec.getLsbD, Nat.toNat_testBit, Nat.pow_zero, Nat.div_one]

/-- Bit 7 is the top bit of a byte, so no reduction mod 2 is left. -/
theorem shiftedOutLeft_toNat (b : Byte) : (shiftedOutLeft b).toNat = b.toNat / 128 := by
  rw [shiftedOutLeft, BitVec.getLsbD, Nat.toNat_testBit]
  omega

theorem shiftSource_toNat (s : State) (x y : Reg) :
    (shiftSource s x y).toNat = if s.cfg.q.shiftSource = true then (s.getV x).toNat else (s.getV y).toNat :=
  apply_ite BitVec.toNat _ _ _

/-! ## The instructions -/

/-- Settles O21: each is one register write, of an operation that acts bit by bit. -/
theorem logicLeavesTheFlagAlone : Obligations.LogicLeavesTheFlagAlone := by
  intro x y s
  refine ⟨⟨decode_xyn rfl (by bv_omega), _, rfl, onlyChanges_setV s x _, fun k => ?_⟩,
    ⟨decode_xyn rfl (by bv_omega), _, rfl, onlyChanges_setV s x _, fun k => ?_⟩,
    ⟨decode_xyn rfl (by bv_omega), _, rfl, onlyChanges_setV s x _, fun k => ?_⟩⟩
  · rw [State.setV_getV_same, BitVec.getLsbD_or]
  · rw [State.setV_getV_same, BitVec.getLsbD_and]
  · rw [State.setV_getV_same, BitVec.getLsbD_xor]

/-- Settles O22: a flagged result, the sum of two bytes as a byte and its carry. -/
theorem addRegistersWithCarry : Obligations.AddRegistersWithCarry := by
  intro x y s
  refine ⟨decode_xyn rfl (by bv_omega), _, rfl, fun hx => ?_, ?_, onlyChanges_setResultFlag s x _ _⟩
  · rw [s.setResultFlag_getV_dest x _ _ hx, BitVec.toNat_add]
  · rw [State.setResultFlag_vf_toNat, carry_toNat]

/-- Settles O23: `SUBN` is `SUB` with the operands exchanged. -/
theorem subtractionsWithNotBorrow : Obligations.SubtractionsWithNotBorrow := by
  intro x y s
  refine ⟨⟨decode_xyn rfl (by bv_omega), _, rfl, fun hx => ?_, ?_, onlyChanges_setResultFlag s x _ _⟩,
    ⟨decode_xyn rfl (by bv_omega), _, rfl, fun hx => ?_, ?_, onlyChanges_setResultFlag s x _ _⟩⟩
  · rw [s.setResultFlag_getV_dest x _ _ hx, byte_sub_toNat]
  · rw [State.setResultFlag_vf_toNat, notBorrow_toNat]
  · rw [s.setResultFlag_getV_dest x _ _ hx, byte_sub_toNat]
  · rw [State.setResultFlag_vf_toNat, notBorrow_toNat]

/-- Settles O24: both shift the byte that the quirk selects. -/
theorem shiftsWithShiftedOutBit : Obligations.ShiftsWithShiftedOutBit := by
  intro x y s src hsrc
  obtain rfl : (shiftSource s x y).toNat = src := (shiftSource_toNat s x y).trans hsrc.symm
  refine ⟨⟨decode_xyn rfl (by bv_omega), _, rfl, fun hx => ?_, ?_, onlyChanges_setResultFlag s x _ _⟩,
    ⟨decode_xyn rfl (by bv_omega), _, rfl, fun hx => ?_, ?_, onlyChanges_setResultFlag s x _ _⟩⟩
  · rw [s.setResultFlag_getV_dest x _ _ hx, BitVec.toNat_ushiftRight, Nat.shiftRight_one]
  · rw [State.setResultFlag_vf_toNat, shiftedOutRight_toNat]
  · rw [s.setResultFlag_getV_dest x _ _ hx, BitVec.toNat_shiftLeft, Nat.shiftLeft_eq]
  · rw [State.setResultFlag_vf_toNat, shiftedOutLeft_toNat]

/-- Settles O25: the masked byte is at most the mask and clear wherever the mask is, whatever byte is drawn. -/
theorem randomIsAFreeByteUnderTheMask : Obligations.RandomIsAFreeByteUnderTheMask := by
  intro x nn s
  have hmask : ((s.setV x (s.draw &&& nn)).bumpDraws).getV x = (Config.rnd s.draws &&& nn) := s.setV_getV_same x _
  refine ⟨decode_xnn rfl (by bv_omega), _, rfl, hmask, ?_, fun k hk => ?_, rfl,
    (onlyChanges_setV s x _).pair (onlyChanges_bumpDraws _)⟩
  · rw [hmask, BitVec.toNat_and]
    exact Nat.and_le_right
  · rw [hmask, BitVec.getLsbD_and, hk, Bool.and_false]

end Sys2Proof.Machine
end

section
/-! SUPPORT. The instructions that move bytes between registers and memory at `I` (R173 to R175): decimal digits, register
stores and register loads. -/

namespace Sys2Proof.Machine

/-- Inside the written range, a store of bytes is read back at each offset (R64). -/
theorem State.writeBytes_readByte_add {s : State} (hs : s.mem.wf s.background) (a : Nat) {bs : List Byte} {k : Nat}
    (hk : k < bs.length) : (s.writeBytes a bs).readByte (a + k) = bs[k] := by
  rw [State.writeBytes_readByte hs, dif_pos (by omega)]
  simp

@[simp] theorem length_bcdDigits (b : Byte) : (bcdDigits b).length = 3 := rfl

/-- Each decimal digit fits a byte, so the bytes stored are the digits as numbers (R173, D16). -/
theorem bcdDigits_toNat (b : Byte) :
    (bcdDigits b)[0].toNat = b.toNat / 100 ∧ (bcdDigits b)[1].toNat = b.toNat / 10 % 10 ∧
      (bcdDigits b)[2].toNat = b.toNat % 10 := by
  simp only [bcdDigits, List.getElem_cons_zero, List.getElem_cons_succ, BitVec.toNat_ofNat]
  omega

/-! ## The post-increment of `I` -/

/-- After an access inside memory the advance of `I` does not wrap (R174, R175). -/
theorem postIncrement_i_toNat {s : State} {x : Reg} (h : s.base + x.val ≤ 0xFFF) :
    (postIncrement s x).i.toNat =
      if s.cfg.q.memoryIncrement = true then s.i.toNat + x.val + 1 else s.i.toNat := by
  have hi : s.i.toNat + x.val ≤ 0xFFF := h
  rw [postIncrement_i, apply_ite BitVec.toNat, BitVec.toNat_add, BitVec.toNat_ofNat]
  congr 1
  omega

/-- A frame that allows `I` still holds after the post-increment. -/
theorem OnlyChanges.postIncrement {P : Component → Prop} {s t : State} (h : OnlyChanges P s t) (hi : P .i) (x : Reg) :
    OnlyChanges P s (postIncrement t x) :=
  h.trans ((onlyChanges_postIncrement t x).mono fun _ hc => hc.1 ▸ hi)

/-! ## The instructions -/

/-- Settles O27: the three digits are stored from `I` on, inside memory, and each fits a byte. -/
theorem bcdStoresThreeDigits : Obligations.BcdStoresThreeDigits := by
  intro x s hs hbase
  have hin : s.base + 3 ≤ 4096 := Nat.add_le_add_right hbase 3
  have hread (k : Fin 3) : (s.writeBytes s.base (bcdDigits (s.getV x))).readByte (s.base + k) =
      (bcdDigits (s.getV x))[k] := State.writeBytes_readByte_add hs s.base k.isLt
  obtain ⟨hhundreds, htens, hones⟩ := bcdDigits_toNat (s.getV x)
  refine ⟨decode_xnn rfl (by bv_omega), _, guardRange_of_inRange (.inr hin) _, ?_, ?_, ?_,
    onlyChanges_writeBytes hs s.base (bcdDigits (s.getV x))⟩
  · exact (congrArg BitVec.toNat (hread 0)).trans hhundreds
  · exact (congrArg BitVec.toNat (hread 1)).trans htens
  · exact (congrArg BitVec.toNat (hread 2)).trans hones

/-- Settles O28: the store of `V[0]` to `V[x]`, then the post-increment, which leaves memory alone. -/
theorem storeRegisterRange : Obligations.StoreRegisterRange := by
  intro x s hs hrange
  have hin : s.base + (x.val + 1) ≤ 4096 := Nat.succ_le_succ hrange
  have hframe : OnlyChanges (fun c => c = .i ∨ ∃ a, c = .byte a ∧ s.base ≤ a ∧ a ≤ s.base + x.val) s
      (s.writeBytes s.base (s.regBytes x)) := by
    refine (onlyChanges_writeBytes hs s.base (s.regBytes x)).mono ?_
    rintro c ⟨a, rfl, hlo, hhi⟩
    rw [State.length_regBytes] at hhi
    exact .inr ⟨a, rfl, hlo, Nat.le_of_lt_succ hhi⟩
  refine ⟨decode_xnn rfl (by bv_omega), _, guardRange_of_inRange (.inr hin) _, fun k hk => ?_,
    postIncrement_i_toNat (s := s.writeBytes s.base (s.regBytes x)) hrange, hframe.postIncrement (.inl rfl) x⟩
  rw [postIncrement_readByte, State.writeBytes_regBytes_readByte hs _ hk]

/-- Settles O29: the load of `V[0]` to `V[x]`, then the post-increment, which leaves the registers alone. -/
theorem loadRegisterRange : Obligations.LoadRegisterRange := by
  intro x s hrange
  have hin : s.base + (x.val + 1) ≤ 4096 := Nat.succ_le_succ hrange
  have hframe := (onlyChanges_loadV s x s.base).mono (Q := fun c => c = .i ∨ ∃ k, c = .v k ∧ k ≤ x) fun _ => .inr
  refine ⟨decode_xnn rfl (by bv_omega), _, guardRange_of_inRange (.inr hin) _, fun k hk => ?_,
    postIncrement_i_toNat (s := s.loadV x s.base) hrange, hframe.postIncrement (.inl rfl) x⟩
  rw [postIncrement_getV, State.loadV_getV, if_pos hk]

end Sys2Proof.Machine
end

section
/-! SUPPORT. What a draw does to `VF` and to the screen (R191, R193, R232): the collision as a covered pixel that was on,
the second draw that undoes the first, and the agreement of the clip settings inside the screen. -/

namespace Sys2Proof.Machine

/-! ## The collision while blitting (R191)

Every drawn bit is checked against the screen as it is then; no two bits share a pixel, so that is the screen before the
draw. -/

/-- Some pixel that `hits` selects is on. -/
def HitsOn (fb : FrameBuffer) (hits : Fin 32 × Fin 64 → Bool) : Prop :=
  ∃ p, hits p = true ∧ FrameBuffer.pixel fb p.1 p.2 = true

theorem hitsOn_or {fb : FrameBuffer} {hits hits' : Fin 32 × Fin 64 → Bool} :
    HitsOn fb (fun p => hits p || hits' p) ↔ HitsOn fb hits ∨ HitsOn fb hits' := by
  simp only [HitsOn, Bool.or_eq_true, or_and_right, exists_or]

/-- Only the selected pixels matter. -/
theorem hitsOn_congr {fb fb' : FrameBuffer} {hits : Fin 32 × Fin 64 → Bool}
    (h : ∀ p, hits p = true → FrameBuffer.pixel fb p.1 p.2 = FrameBuffer.pixel fb' p.1 p.2) :
    HitsOn fb hits ↔ HitsOn fb' hits :=
  exists_congr fun p => and_congr_right fun hp => by rw [h p hp]

/-- A fold whose every element toggles the pixels it hits, none of them hit by a later one, and notes a collision when one
of them is on: it notes one exactly when a pixel hit by some element is on at the start. -/
theorem foldl_flag_iff {α : Type} {f : FrameBuffer × Bool → α → FrameBuffer × Bool}
    {P : Fin 32 × Fin 64 → α → Bool} {l : List α}
    (hpix : ∀ acc, ∀ a ∈ l, ∀ p : Fin 32 × Fin 64,
      FrameBuffer.pixel (f acc a).1 p.1 p.2 = (FrameBuffer.pixel acc.1 p.1 p.2 ^^ P p a))
    (hflag : ∀ acc, ∀ a ∈ l, (f acc a).2 = true ↔ acc.2 = true ∨ HitsOn acc.1 fun p => P p a)
    (hl : l.Pairwise fun a a' => ∀ p, P p a = true → P p a' = false) (acc : FrameBuffer × Bool) :
    (l.foldl f acc).2 = true ↔ acc.2 = true ∨ HitsOn acc.1 fun p => l.any (P p) := by
  induction l generalizing acc with
  | nil => simp [HitsOn]
  | cons a l ih =>
    obtain ⟨ha, hl⟩ := List.pairwise_cons.mp hl
    have huntouched : ∀ p, l.any (P p) = true →
        FrameBuffer.pixel (f acc a).1 p.1 p.2 = FrameBuffer.pixel acc.1 p.1 p.2 := fun p hp => by
      obtain ⟨a', hmem, hhit⟩ := List.any_eq_true.mp hp
      have hmiss : P p a = false := Bool.eq_false_iff.mpr fun h => by simp [ha a' hmem p h] at hhit
      rw [hpix acc a List.mem_cons_self, hmiss, Bool.xor_false]
    rw [List.foldl_cons, ih (fun acc a' h => hpix acc a' (List.mem_cons_of_mem a h))
      (fun acc a' h => hflag acc a' (List.mem_cons_of_mem a h)) hl, hflag acc a List.mem_cons_self,
      hitsOn_congr huntouched, or_assoc, ← hitsOn_or]
    simp only [List.any_cons]

section
variable {clip : Bool} {x0 y0 : Byte}

theorem blitBit_flag_iff (row col : Nat) (acc : FrameBuffer × Bool) :
    (blitBit clip x0 y0 row col acc).2 = true ↔
      acc.2 = true ∨ HitsOn acc.1 fun p => decide (spriteTarget clip x0 y0 row col = some p) := by
  unfold blitBit
  split
  · simp [HitsOn, ‹spriteTarget clip x0 y0 row col = none›]
  · rename_i y x ht
    simp [HitsOn, ht]

/-- No pixel is hit by two bits of a row. -/
theorem pairwise_bitHits {row : Nat} (hrow : row < 32) (b : Byte) :
    (List.range 8).Pairwise fun c c' =>
      ∀ p, bitHits clip x0 y0 p row b c = true → bitHits clip x0 y0 p row b c' = false := by
  refine List.pairwise_lt_range.imp_of_mem fun {c c'} hc hc' hlt p hhit => Bool.eq_false_iff.mpr fun hhit' => ?_
  have hc : c < 8 := List.mem_range.mp hc
  have hc' : c' < 8 := List.mem_range.mp hc'
  have := spriteTarget_inj hrow hrow (by omega) (by omega) (bitHits_iff.mp hhit).2 (bitHits_iff.mp hhit').2
  omega

/-- No pixel is hit by two rows of a sprite. -/
theorem pairwise_rowHits {bs : List Byte} (hbs : bs.length ≤ 32) :
    bs.zipIdx.Pairwise fun r r' =>
      ∀ p, rowHits clip x0 y0 p r.2 r.1 = true → rowHits clip x0 y0 p r'.2 r'.1 = false := by
  have hpair : bs.zipIdx.Pairwise fun r r' => r.2 < r'.2 := by
    rw [← List.pairwise_map (f := Prod.snd), List.zipIdx_map_snd]
    exact List.pairwise_lt_range'
  refine hpair.imp_of_mem fun {r r'} hr hr' hlt p hhit => Bool.eq_false_iff.mpr fun hhit' => ?_
  have hr := List.snd_lt_of_mem_zipIdx hr
  have hr' := List.snd_lt_of_mem_zipIdx hr'
  obtain ⟨c, hc, -, ht⟩ := rowHits_iff.mp hhit
  obtain ⟨c', hc', -, ht'⟩ := rowHits_iff.mp hhit'
  have := spriteTarget_inj (by omega) (by omega) (by omega) (by omega) ht ht'
  omega

theorem blitRow_flag_iff {row : Nat} (hrow : row < 32) (b : Byte) (acc : FrameBuffer × Bool) :
    (blitRow clip x0 y0 row b acc).2 = true ↔
      acc.2 = true ∨ HitsOn acc.1 fun p => rowHits clip x0 y0 p row b := by
  refine foldl_flag_iff (P := fun p => bitHits clip x0 y0 p row b) (fun acc col _ p => ?_) (fun acc col _ => ?_)
    (pairwise_bitHits hrow b) acc
  · unfold bitHits
    split
    · rw [pixel_blitBit, ‹spriteBit b col = true›, Bool.true_and]
    · simp [‹¬spriteBit b col = true›]
  · unfold bitHits
    split
    · simp only [blitBit_flag_iff, ‹spriteBit b col = true›, Bool.true_and]
    · simp [HitsOn, ‹¬spriteBit b col = true›]

theorem blitRows_flag_iff {bs : List Byte} (hbs : bs.length ≤ 32) (acc : FrameBuffer × Bool) :
    (blitRows clip x0 y0 0 bs acc).2 = true ↔
      acc.2 = true ∨ HitsOn acc.1 fun p => bs.zipIdx.any fun r => rowHits clip x0 y0 p r.2 r.1 := by
  have hlt : ∀ r ∈ bs.zipIdx, r.2 < 32 := fun r hr => by
    have := List.snd_lt_of_mem_zipIdx hr
    omega
  rw [blitRows_eq_foldl]
  exact foldl_flag_iff (α := Byte × Nat) (P := fun p r => rowHits clip x0 y0 p r.2 r.1)
    (fun acc r hr _ => pixel_blitRow (hlt r hr) r.1 acc) (fun acc r hr => blitRow_flag_iff (hlt r hr) r.1 acc)
    (pairwise_rowHits hbs) acc

end

/-- The collision of a draw: some covered pixel was on. -/
theorem drawSprite_flag_iff (s : State) (x y : Reg) (n : Nibble) :
    (drawSprite s x y n.toNat).2 = true ↔ ∃ py px, SpriteCovers s x y n py px ∧ s.pixel py px = true := by
  have hlen : (s.readBytes s.base n.toNat).length ≤ 32 := by
    rw [State.readBytes, List.length_map, List.length_range]
    omega
  rw [drawSprite, blitRows_flag_iff hlen, HitsOn, Prod.exists]
  simp only [any_rowHits_iff_spriteCovers, Bool.false_eq_true, false_or]
  rfl

/-- A draw depends on the screen and on the covered pixels only. -/
theorem drawSprite_congr {s t : State} {x y : Reg} {n : Nibble} (hfb : t.fb = s.fb)
    (hcov : ∀ py px, SpriteCovers t x y n py px ↔ SpriteCovers s x y n py px) :
    drawSprite t x y n.toNat = drawSprite s x y n.toNat := by
  have hpixel : ∀ py px, t.pixel py px = s.pixel py px := fun py px => by rw [State.pixel, hfb, State.pixel]
  refine Prod.ext (FrameBuffer.ext_pixel fun py px => ?_) (Bool.eq_iff_iff.mpr ?_)
  · obtain ⟨hon, hoff⟩ := pixel_drawSprite s x y n py px
    obtain ⟨hon', hoff'⟩ := pixel_drawSprite t x y n py px
    by_cases hc : SpriteCovers s x y n py px
    · rw [hon hc, hon' ((hcov py px).mpr hc), hpixel]
    · rw [hoff hc, hoff' (mt (hcov py px).mp hc), hpixel]
  · simp only [drawSprite_flag_iff, hcov, hpixel]

/-! ## The state a completed draw leaves -/

/-- `s` after the draw: the new screen, then the collision in `VF` (R191). -/
def State.drawn (s : State) (x y : Reg) (n : Nibble) : State :=
  (s.setFb (drawSprite s x y n.toNat).1).setFlag (drawSprite s x y n.toNat).2

theorem exec_drw (x y : Reg) (n : Nibble) (s : State) :
    exec (.drw x y n) s = guardRange s.base n.toNat (.next (s.drawn x y n)) := rfl

section
variable {s : State} {x y : Reg} {n : Nibble}

theorem State.drawn_pixel_of_covers {py : Fin 32} {px : Fin 64} (h : SpriteCovers s x y n py px) :
    (s.drawn x y n).pixel py px = !s.pixel py px :=
  (pixel_drawSprite s x y n py px).1 h

theorem State.drawn_pixel_of_not_covers {py : Fin 32} {px : Fin 64} (h : ¬SpriteCovers s x y n py px) :
    (s.drawn x y n).pixel py px = s.pixel py px :=
  (pixel_drawSprite s x y n py px).2 h

theorem State.drawn_vf (s : State) (x y : Reg) (n : Nibble) :
    (s.drawn x y n).getV vf = flagByte (drawSprite s x y n.toNat).2 := by
  rw [State.drawn, State.setFlag_getV, if_pos rfl]

theorem State.drawn_vf_eq_one_iff :
    (s.drawn x y n).getV vf = 1 ↔ ∃ py px, SpriteCovers s x y n py px ∧ s.pixel py px = true := by
  rw [← drawSprite_flag_iff, State.drawn_vf]
  cases (drawSprite s x y n.toNat).2 <;> decide

theorem State.drawn_vf_eq_zero_iff :
    (s.drawn x y n).getV vf = 0 ↔ ¬∃ py px, SpriteCovers s x y n py px ∧ s.pixel py px = true := by
  rw [← drawSprite_flag_iff, State.drawn_vf]
  cases (drawSprite s x y n.toNat).2 <;> decide

/-- The pixels a draw turns off are the covered ones that were on. -/
theorem State.drawn_turns_off_iff {py : Fin 32} {px : Fin 64} :
    s.pixel py px = true ∧ (s.drawn x y n).pixel py px = false ↔ SpriteCovers s x y n py px ∧ s.pixel py px = true := by
  by_cases h : SpriteCovers s x y n py px
  · simp [State.drawn_pixel_of_covers h, h]
  · simp [State.drawn_pixel_of_not_covers h, h]

/-- A draw whose coordinates are not in `VF` leaves the sprite where it is: its origin, its bytes and the settings. -/
theorem spriteCovers_drawn_iff (hx : x ≠ vf) (hy : y ≠ vf) {py : Fin 32} {px : Fin 64} :
    SpriteCovers (s.drawn x y n) x y n py px ↔ SpriteCovers s x y n py px := by
  simp [SpriteCovers, State.drawn, hx, hy]

/-- A sprite covers each pixel once, so its second draw undoes the first (R193). -/
theorem State.drawn_drawn_fb (hx : x ≠ vf) (hy : y ≠ vf) : ((s.drawn x y n).drawn x y n).fb = s.fb := by
  refine FrameBuffer.ext_pixel fun py px => ?_
  change ((s.drawn x y n).drawn x y n).pixel py px = s.pixel py px
  by_cases h : SpriteCovers s x y n py px
  · rw [State.drawn_pixel_of_covers ((spriteCovers_drawn_iff hx hy).mpr h), State.drawn_pixel_of_covers h, Bool.not_not]
  · rw [State.drawn_pixel_of_not_covers (mt (spriteCovers_drawn_iff hx hy).mp h), State.drawn_pixel_of_not_covers h]

/-- On a clear screen a draw lights exactly the covered pixels. -/
theorem State.drawn_pixel_of_clear (hclear : ∀ py px, s.pixel py px = false) {py : Fin 32} {px : Fin 64} :
    (s.drawn x y n).pixel py px = true ↔ SpriteCovers s x y n py px := by
  by_cases h : SpriteCovers s x y n py px
  · simp [State.drawn_pixel_of_covers h, hclear, h]
  · simp [State.drawn_pixel_of_not_covers h, hclear, h]

/-- Where a sprite that crosses neither edge falls does not depend on the settings (R191, R232). -/
theorem spriteCovers_withQuirks_iff (hcols : (s.getV x).toNat % 64 ≤ 56) (hrows : (s.getV y).toNat % 32 + n.toNat ≤ 32)
    (q : Quirks) {py : Fin 32} {px : Fin 64} :
    SpriteCovers (s.withQuirks q) x y n py px ↔ SpriteCovers s x y n py px := by
  have hplace : ∀ row col : Nat, row < n.toNat → col < 8 → ∀ clip : Bool,
      (if clip then (s.getV x).toNat % 64 + col = px.val ∧ (s.getV y).toNat % 32 + row = py.val
        else ((s.getV x).toNat + col) % 64 = px.val ∧ ((s.getV y).toNat + row) % 32 = py.val) ↔
      (s.getV x).toNat % 64 + col = px.val ∧ (s.getV y).toNat % 32 + row = py.val := by
    intro row col hrow hcol clip
    cases clip with
    | true => rfl
    | false =>
      rw [if_neg Bool.false_ne_true]
      omega
  refine exists_congr fun row => exists_congr fun col => and_congr_right fun hrow => and_congr_right fun hcol =>
    and_congr_right fun _ => ?_
  exact (hplace row col hrow hcol q.spriteClip).trans (hplace row col hrow hcol s.cfg.q.spriteClip).symm

theorem State.drawn_withQuirks (hcols : (s.getV x).toNat % 64 ≤ 56) (hrows : (s.getV y).toNat % 32 + n.toNat ≤ 32)
    (q : Quirks) : (s.withQuirks q).drawn x y n = (s.drawn x y n).withQuirks q := by
  have hdraw : drawSprite (s.withQuirks q) x y n.toNat = drawSprite s x y n.toNat :=
    drawSprite_congr rfl fun _ _ => spriteCovers_withQuirks_iff hcols hrows q
  rw [State.drawn, hdraw]
  rfl

end

theorem mapNext_guardRange (f : State → State) (base n : Nat) (t : State) :
    mapNext f (guardRange base n (.next t)) = guardRange base n (.next (f t)) := by
  unfold guardRange raise
  split <;> rfl

/-! ## The statements -/

/-- Settles O33: `VF` tells of a covered pixel that was on, and those are the pixels turned off. -/
theorem collisionIsAPixelTurnedOff : Obligations.CollisionIsAPixelTurnedOff := by
  intro x y n s t h
  obtain ⟨-, rfl⟩ := guardRange_next (exec_drw x y n s ▸ h)
  simp only [State.drawn_turns_off_iff]
  exact ⟨State.drawn_vf_eq_one_iff.mpr, State.drawn_vf_eq_zero_iff.mpr⟩

/-- Settles O34: the second draw has the range, the place and the bytes of the first; on a clear screen it collides with
what the first one lit. -/
theorem drawingTwiceRestoresTheScreen : Obligations.DrawingTwiceRestoresTheScreen := by
  intro x y n s t hx hy h
  obtain ⟨hrange, rfl⟩ := guardRange_next (exec_drw x y n s ▸ h)
  refine ⟨(s.drawn x y n).drawn x y n, guardRange_of_inRange (base := s.base) hrange _, State.drawn_drawn_fb hx hy,
    fun hclear => ⟨State.drawn_vf_eq_zero_iff.mpr ?_, State.drawn_vf_eq_one_iff.trans ?_⟩⟩
  · simp [hclear]
  · simp only [spriteCovers_drawn_iff hx hy, State.drawn_pixel_of_clear hclear, and_self]

/-- Settles O35: both draws have the same range check, and leave the same state when it passes. -/
theorem clipAndWrapAgreeInsideTheScreen : Obligations.ClipAndWrapAgreeInsideTheScreen := by
  intro x y n s q hcols hrows
  rw [exec_drw, exec_drw, mapNext_guardRange, State.drawn_withQuirks hcols hrows]
  rfl

end Sys2Proof.Machine
end

section
/-! SUPPORT. Proofs of the statements about the keypad (spec 44_timers_keypad.md): the key skips, the key wait, what it
reports and what ends it. -/

namespace Sys2Proof.Machine

/-! ## Who changes the mode (R36) -/

/-- An effect that is not allowed to write the mode leaves it alone, whatever memory holds. -/
theorem Effect.mode_eq {P : Component → Prop} {s t : State} (h : Effect P s t) (hP : ¬P .mode) : t.mode = s.mode := by
  cases h with
  | latch hm => exact absurd hm hP
  | call hu =>
    obtain ⟨_, rfl⟩ := State.push_some hu
    rfl
  | ret hu =>
    obtain ⟨_, _, rfl⟩ := State.pop_some hu
    rfl
  | skip | storeInc | loadInc => simp
  | _ => rfl

theorem exec_mode_of_ne_ldVxK {i : Instr} {s t : State} (h : exec i s = .next t) (hi : ∀ x, i ≠ .ldVxK x) :
    t.mode = s.mode :=
  (exec_effect h).mode_eq fun ⟨x, hx⟩ => hi x hx

theorem exec_ldVxK (x : Reg) (s : State) : exec (.ldVxK x) s = .next (s.setMode (.awaitingKey x)) := rfl

/-- After a press no core waits: a running one goes on, a waiting one has its key (R246). -/
theorem setKeyState_true_mode (k : Key) (s : State) : (setKeyState k true s).mode = .running := by
  rw [setKeyState, if_pos rfl, deliverKey]
  split
  · assumption
  · rfl

theorem setKeyState_false_mode (k : Key) (s : State) : (setKeyState k false s).mode = s.mode := rfl

theorem tickTimers_mode (s : State) : (tickTimers s).mode = s.mode := rfl

/-- The report is a function of the mode alone (R243). -/
theorem State.report_eq_awaitingKey_iff (s : State) : s.report = .awaitingKey ↔ ∃ r, s.mode = .awaitingKey r := by
  unfold State.report
  cases s.mode with
  | running => exact iff_of_false nofun nofun
  | awaitingKey r => exact iff_of_true rfl ⟨r, rfl⟩

/-! ## The statements -/

/-- Settles O9: `LD VX, K` sets the latch, and no other instruction touches the mode, which was running. -/
theorem onlyKeyWaitReportsAwaitingKey : Obligations.OnlyKeyWaitReportsAwaitingKey := by
  intro s t hmode h
  obtain ⟨r, hwait, _⟩ | ⟨_, _, i, hi, hexec⟩ := step_next h
  · cases hmode.symm.trans hwait
  · rw [State.report_eq_awaitingKey_iff, hi]
    by_cases hx : ∃ x, i = .ldVxK x
    · obtain ⟨x, rfl⟩ := hx
      cases (exec_ldVxK x s.advancePc).symm.trans hexec
      exact iff_of_true ⟨x, rfl⟩ ⟨x, rfl⟩
    · have hrunning : t.mode = .running := (exec_mode_of_ne_ldVxK hexec (not_exists.mp hx)).trans hmode
      refine iff_of_false ?_ fun ⟨x, hsome⟩ => hx ⟨x, Option.some.inj hsome⟩
      rw [hrunning]
      exact nofun

/-- Settles O43: a load and a press leave the core running; a step, a tick and a release leave its mode alone. -/
theorem waitEndsOnlyByPressOrLoad : Obligations.WaitEndsOnlyByPressOrLoad := by
  intro op s t r hwait h hends
  cases op with
  | load bytes =>
    obtain ⟨_, rfl⟩ := load_next h
    exact ⟨rfl, .inl ⟨bytes, rfl⟩⟩
  | step =>
    cases (step_waiting hwait).symm.trans h
    exact absurd hwait hends
  | tickTimers =>
    cases h
    exact absurd ((tickTimers_mode s).trans hwait) hends
  | setKeyState k pressed =>
    cases h
    cases pressed with
    | true => exact ⟨setKeyState_true_mode k s, .inr ⟨k, rfl⟩⟩
    | false => exact absurd ((setKeyState_false_mode k s).trans hwait) hends

/-- Settles O37: each is `skipIf` of the level of the selected key, or of its negation. -/
theorem keySkips : Obligations.KeySkips := by
  intro x s k hk
  obtain rfl : k = keyOrdinal (s.getV x) := Fin.ext hk
  exact ⟨⟨decode_xnn rfl (by bv_omega), _, rfl, s.skipIf_pc_iff Iff.rfl, onlyChanges_skipIf s _⟩,
    ⟨decode_xnn rfl (by bv_omega), _, rfl, s.skipIf_pc_iff (by rw [Bool.not_eq_true']), onlyChanges_skipIf s _⟩⟩

/-- Settles O38: one write of the mode. -/
theorem keyWaitSetsTheLatchOnly : Obligations.KeyWaitSetsTheLatchOnly := fun x s =>
  ⟨decode_xnn rfl (by bv_omega), _, exec_ldVxK x s, rfl, (State.report_eq_awaitingKey_iff _).mpr ⟨x, rfl⟩,
    onlyChanges_setMode s _⟩

end Sys2Proof.Machine
end

section
/-! SUPPORT. Proof of the statement about the quirks (R231): the state under other settings, read by each shared
operation, then by the instructions that consult a quirk. -/

namespace Sys2Proof.Machine

/-! ## Operations that consult no quirk -/

theorem State.skipIf_withQuirks (s : State) (q : Quirks) (c : Bool) :
    (s.withQuirks q).skipIf c = (s.skipIf c).withQuirks q := by
  cases c <;> rfl

theorem State.push_withQuirks (s : State) (q : Quirks) (a : Word) :
    (s.withQuirks q).push a = (s.push a).map (·.withQuirks q) := by
  by_cases h : s.sp.val < 16
  · rw [State.push_of_lt h, State.push_of_lt (s := s.withQuirks q) h]
    rfl
  · have hsp : s.sp.val = 16 := by omega
    rw [State.push_full hsp, State.push_full (s := s.withQuirks q) hsp]
    rfl

theorem State.pop_withQuirks (s : State) (q : Quirks) :
    (s.withQuirks q).pop = s.pop.map fun p => (p.1, p.2.withQuirks q) := by
  rcases Nat.eq_zero_or_pos s.sp.val with h | h
  · rw [State.pop_empty h, State.pop_empty (s := s.withQuirks q) h]
    rfl
  · rw [State.pop_of_pos h, State.pop_of_pos (s := s.withQuirks q) h]
    rfl

/-- The range check consults no setting, so a guarded effect may exchange them after it. -/
theorem guardRange_withQuirks (q : Quirks) (base n : Nat) {t t' : State} (h : t' = t.withQuirks q) :
    guardRange base n (.next t') = mapNext (·.withQuirks q) (guardRange base n (.next t)) := by
  rw [mapNext_guardRange, h]

/-! ## Operations that consult one quirk, under settings that agree on it -/

section
variable {s : State} {q : Quirks}

theorem shiftSource_withQuirks (h : q.shiftSource = s.cfg.q.shiftSource) (x y : Reg) :
    shiftSource (s.withQuirks q) x y = shiftSource s x y := by
  rw [shiftSource, State.withQuirks, h]
  rfl

theorem jumpTarget_withQuirks (h : q.jumpOffset = s.cfg.q.jumpOffset) (nnn : Addr12) :
    jumpTarget (s.withQuirks q) nnn = jumpTarget s nnn := by
  rw [jumpTarget, State.withQuirks, h]
  rfl

theorem postIncrement_withQuirks (h : q.memoryIncrement = s.cfg.q.memoryIncrement) (x : Reg) :
    postIncrement (s.withQuirks q) x = (postIncrement s x).withQuirks q := by
  have hq : (s.withQuirks q).cfg.q.memoryIncrement = s.cfg.q.memoryIncrement := h
  unfold postIncrement
  rw [hq]
  split <;> rfl

theorem State.drawn_withQuirks_of_spriteClip_eq (h : q.spriteClip = s.cfg.q.spriteClip) (x y : Reg) (n : Nibble) :
    (s.withQuirks q).drawn x y n = (s.drawn x y n).withQuirks q := by
  have hdraw : drawSprite (s.withQuirks q) x y n.toNat = drawSprite s x y n.toNat := by
    rw [drawSprite, State.withQuirks, h]
    rfl
  rw [State.drawn, hdraw]
  rfl

end

/-! ## The statement -/

/-- Settles O54: an arm that reads a quirk reads the one R231 names for it, on which the settings agree; the others read
none. -/
theorem quirksActOnlyWhereNamed : Obligations.QuirksActOnlyWhereNamed := by
  intro i s q hagree
  cases i with
  | ret =>
    rw [exec, exec, execRet, execRet, State.pop_withQuirks]
    cases s.pop <;> rfl
  | call nnn =>
    have hpush : (s.withQuirks q).push (s.withQuirks q).pc = (s.push s.pc).map (·.withQuirks q) :=
      s.push_withQuirks q s.pc
    rw [exec, exec, execCall, execCall, hpush]
    cases s.push s.pc <;> rfl
  | seImm | sneImm | seReg | sneReg | skp | sknp => exact congrArg Host.Outcome.next (s.skipIf_withQuirks q _)
  | shr x y | shl x y =>
    simp only [exec, execShr, execShl, shiftSource_withQuirks hagree]
    rfl
  | jpV0 nnn =>
    rw [exec, exec, execJpV0, execJpV0, jumpTarget_withQuirks hagree]
    rfl
  | drw x y n => exact guardRange_withQuirks q s.base _ (State.drawn_withQuirks_of_spriteClip_eq hagree x y n)
  | ldB x => exact guardRange_withQuirks q s.base _ rfl
  | storeRegs x =>
    exact guardRange_withQuirks q s.base _ (postIncrement_withQuirks (s := s.writeBytes s.base (s.regBytes x)) hagree x)
  | loadRegs x =>
    exact guardRange_withQuirks q s.base _ (postIncrement_withQuirks (s := s.loadV x s.base) hagree x)
  | _ => rfl

end Sys2Proof.Machine
end

section
/-! SUPPORT. Proofs of the statements about the operations (spec 50_operations.md): the step as fetch and execution, the
failed fetch, the waiting step, the tick, the key event, and the delay timer over a schedule. -/

namespace Sys2Proof.Machine

/-! ## Schedules (R241, R280) -/

/-- A schedule completes when its first operation does and the rest completes from the state that leaves. -/
theorem runSchedule_cons_eq_next_iff {policy : FaultPolicy} {op : Operation} {ops : List Operation} {s t : State} :
    runSchedule policy (op :: ops) s = .next t ↔
      ∃ u, performUnder policy op s = .next u ∧ runSchedule policy ops u = .next t := by
  rw [runSchedule]
  cases performUnder policy op s <;> simp

theorem performUnder_halt (op : Operation) (s : State) : performUnder .halt op s = perform op s := by
  unfold performUnder
  cases perform op s <;> rfl

/-! ## The timers (R245) -/

theorem countDown_toNat (b : Byte) : (countDown b).toNat = b.toNat - 1 := by
  unfold countDown
  split
  · subst b
    rfl
  · bv_omega

theorem tickTimers_dt_toNat (s : State) : (tickTimers s).dt.toNat = s.dt.toNat - 1 :=
  countDown_toNat s.dt

theorem tickTimers_st_toNat (s : State) : (tickTimers s).st.toNat = s.st.toNat - 1 :=
  countDown_toNat s.st

/-- An effect that is not allowed to write `DT` leaves it alone, whatever memory holds. -/
theorem Effect.dt_eq {P : Component → Prop} {s t : State} (h : Effect P s t) (hP : ¬P .dt) : t.dt = s.dt := by
  cases h with
  | delay hd => exact absurd hd hP
  | call hu =>
    obtain ⟨_, rfl⟩ := State.push_some hu
    rfl
  | ret hu =>
    obtain ⟨_, _, rfl⟩ := State.pop_some hu
    rfl
  | skip | storeInc | loadInc => simp
  | _ => rfl

/-- A step that executes no `LD DT, VX` leaves `DT` alone; a waiting one executes nothing (R244, R308). -/
theorem step_dt_eq {s t : State} (h : step s = .next t)
    (hno : s.mode = .running → ∀ x, decode (s.wordAt s.pc.toNat) ≠ some (.ldDtVx x)) : t.dt = s.dt := by
  obtain ⟨_, _, rfl⟩ | ⟨hmode, _, i, hi, hexec⟩ := step_next h
  · rfl
  · exact (exec_effect hexec).dt_eq fun ⟨x, hx⟩ => hno hmode x (hx ▸ hi)

/-- Settles O40, by induction on the schedule: a tick takes one from `DT`, a step leaves it alone. -/
theorem delayCountsTicksWhateverTheSteps : Obligations.DelayCountsTicksWhateverTheSteps := by
  intro ops
  induction ops with
  | nil =>
    intro s t _ _ h
    cases h
    rfl
  | cons op ops ih =>
    intro s t hops hno h
    obtain ⟨u, hop, hrest⟩ := runSchedule_cons_eq_next_iff.mp h
    have htail : t.dt.toNat = u.dt.toNat - ops.count .tickTimers :=
      ih u t (fun o ho => hops o (List.mem_cons_of_mem op ho))
        (fun pre post v hsplit hpre => hno (op :: pre) post v (congrArg (op :: ·) hsplit)
          (runSchedule_cons_eq_next_iff.mpr ⟨u, hop, hpre⟩))
        hrest
    rw [performUnder_halt] at hop
    obtain rfl | rfl := hops op List.mem_cons_self
    · cases hop
      rw [htail, tickTimers_dt_toNat, List.count_cons_self]
      omega
    · have hdt : u.dt = s.dt := step_dt_eq hop (hno [] ops s rfl rfl)
      rw [htail, hdt, List.count_cons_of_ne (by decide)]

/-- Settles O39: one write of each timer, of the value counted down. -/
theorem tickDecrementsBothTimers : Obligations.TickDecrementsBothTimers := by
  intro s
  refine ⟨rfl, ?_, ?_, (onlyChanges_setDt s _).pair (onlyChanges_setSt _ _)⟩
  · rw [tickTimers_dt_toNat]
    split <;> omega
  · rw [tickTimers_st_toNat]
    split <;> omega

/-! ## The step (R242, R244) -/

/-- Settles O5: the fetch, then `exec` behind the advanced `PC`. -/
theorem stepRunsTheDecodedInstruction : Obligations.StepRunsTheDecodedInstruction :=
  fun _ _ hmode hpc hi => step_of_decode hmode hpc hi

/-- Settles O7: the check of the fetch fails, and what the error leaves and reports turns on the same check. -/
theorem fetchOutsideMemoryRaises : Obligations.FetchOutsideMemoryRaises := by
  intro s hmode hpc
  have hout : ¬inRange s.pc.toNat 2 = true := by
    rw [inRange_iff]
    omega
  refine ⟨?_, if_neg hout, ?_⟩
  · rw [step_running hmode, guardRange_of_outside (by decide) (by omega)]
  · rw [diagnostics, if_neg hout]

/-- Settles O8: the step of a waiting core answers its own state, whose mode the report reads. -/
theorem waitingStepIsANoOp : Obligations.WaitingStepIsANoOp :=
  fun s r hwait => ⟨step_waiting hwait, s.report_eq_awaitingKey_iff.mpr ⟨r, hwait⟩⟩

/-! ## Key events (R246) -/

theorem onlyChanges_setKey (s : State) (k : Key) (pressed : Bool) :
    OnlyChanges (· = .key k) s (s.setKey k pressed) := by
  intro c hc
  cases c with
  | key q =>
    have hq : q ≠ k := fun h => hc (h ▸ rfl)
    exact (State.setKey_getKey s k pressed q).trans (if_neg hq)
  | _ => rfl

theorem State.setKey_getKey_same (s : State) (k : Key) (pressed : Bool) : (s.setKey k pressed).getKey k = pressed := by
  rw [State.setKey_getKey, if_pos rfl]

section
variable {s : State} (k : Key)

/-- A release, and any event of a running core, only records the level. -/
theorem setKeyState_eq_setKey {pressed : Bool} (h : pressed = false ∨ s.mode = .running) :
    setKeyState k pressed s = s.setKey k pressed := by
  cases pressed with
  | false => rfl
  | true =>
    have hmode : (s.setKey k true).mode = .running := h.resolve_left nofun
    rw [setKeyState, if_pos rfl, deliverKey, hmode]

/-- A press while waiting records the level, delivers the ordinal and clears the latch. -/
theorem setKeyState_press_waiting {r : Reg} (hwait : s.mode = .awaitingKey r) :
    setKeyState k true s = ((s.setKey k true).setV r (BitVec.ofNat 8 k.val)).setMode .running := by
  have hmode : (s.setKey k true).mode = .awaitingKey r := hwait
  rw [setKeyState, if_pos rfl, deliverKey, hmode]

end

theorem setKeyState_getKey_same (k : Key) (pressed : Bool) (s : State) :
    (setKeyState k pressed s).getKey k = pressed := by
  cases pressed with
  | false => exact s.setKey_getKey_same k false
  | true =>
    cases hmode : s.mode with
    | running =>
      rw [setKeyState_eq_setKey k (.inr hmode)]
      exact s.setKey_getKey_same k true
    | awaitingKey r =>
      rw [setKeyState_press_waiting k hmode]
      exact s.setKey_getKey_same k true

/-- Settles O42: an event writes the key's level, and a press while waiting also the latched register and the mode. -/
theorem setKeyStateRecordsAndDelivers : Obligations.SetKeyStateRecordsAndDelivers := by
  intro k pressed s
  refine ⟨rfl, setKeyState_getKey_same k pressed s, fun hquiet => ?_, fun r hpress hwait => ?_⟩
  · rw [setKeyState_eq_setKey k hquiet]
    exact onlyChanges_setKey s k pressed
  · subst hpress
    rw [setKeyState_press_waiting k hwait]
    refine ⟨?_, rfl, ?_⟩
    · rw [State.setMode_getV, State.setV_getV_same, BitVec.toNat_ofNat]
      omega
    · exact ((onlyChanges_setKey s k true).of_eq (by simp)).trans
        (((onlyChanges_setV _ r _).of_eq (by simp)).trans ((onlyChanges_setMode _ _).of_eq (by simp)))

end Sys2Proof.Machine
end

section
/-! SUPPORT. Proofs of the statements about errors (spec 60_exceptions.md): which error each operation raises and when, the
state and the diagnostics it leaves, and what the driver's policy makes of it. -/

namespace Sys2Proof.Machine

/-! ## The errors of an instruction (R270, R272, R273, R275) -/

/-- The one error of a guarded effect, and when it is raised (R63, R275). -/
theorem guardRange_eq_fault_iff {base n : Nat} {t : State} {e : Fault} :
    guardRange base n (.next t) = .fault e ↔
      e = .memoryOutOfBounds (max base 0x1000) ∧ 0 < n ∧ 0x1000 < base + n := by
  by_cases hin : n = 0 ∨ base + n ≤ 4096
  · rw [guardRange_of_inRange hin]
    exact iff_of_false nofun (by omega)
  · rw [guardRange_of_outside (by omega) (by omega)]
    constructor
    · rintro ⟨⟩
      exact ⟨rfl, by omega, by omega⟩
    · rintro ⟨rfl, -⟩
      rfl

theorem exec_call_eq_fault_iff {nnn : Addr12} {s : State} {e : Fault} :
    exec (.call nnn) s = .fault e ↔ e = .stackOverflow ∧ s.sp.val = 16 := by
  by_cases hsp : s.sp.val = 16
  · simp [exec_call_of_full hsp, hsp, eq_comm]
  · simp [exec_call_of_push (State.push_of_lt (by omega) s.pc), hsp]

theorem exec_ret_eq_fault_iff {s : State} {e : Fault} :
    exec .ret s = .fault e ↔ e = .stackUnderflow ∧ s.sp.val = 0 := by
  by_cases hsp : s.sp.val = 0
  · simp [exec_ret_of_empty hsp, hsp, eq_comm]
  · simp [exec_ret_of_pop (State.pop_of_pos (Nat.pos_of_ne_zero hsp)), hsp]

theorem exec_ldB_eq_fault_iff {x : Reg} {s : State} {e : Fault} :
    exec (.ldB x) s = .fault e ↔ e = .memoryOutOfBounds (max s.base 0x1000) ∧ 0xFFF < s.base + 2 :=
  guardRange_eq_fault_iff.trans (and_congr_right fun _ => by omega)

theorem exec_storeRegs_eq_fault_iff {x : Reg} {s : State} {e : Fault} :
    exec (.storeRegs x) s = .fault e ↔ e = .memoryOutOfBounds (max s.base 0x1000) ∧ 0xFFF < s.base + x.val :=
  guardRange_eq_fault_iff.trans (and_congr_right fun _ => by omega)

theorem exec_loadRegs_eq_fault_iff {x : Reg} {s : State} {e : Fault} :
    exec (.loadRegs x) s = .fault e ↔ e = .memoryOutOfBounds (max s.base 0x1000) ∧ 0xFFF < s.base + x.val :=
  guardRange_eq_fault_iff.trans (and_congr_right fun _ => by omega)

theorem exec_drw_eq_fault_iff {x y : Reg} {n : Nibble} {s : State} {e : Fault} :
    exec (.drw x y n) s = .fault e ↔
      e = .memoryOutOfBounds (max s.base 0x1000) ∧ 0 < n.toNat ∧ 0x1000 < s.base + n.toNat :=
  guardRange_eq_fault_iff

/-- Every instruction has a meaning: it completes or raises an error. -/
theorem exec_ne_refused (i : Instr) (s : State) (r : Refusal) : exec i s ≠ .refused r := by
  cases i with
  | call nnn =>
    rw [exec, execCall]
    split <;> nofun
  | ret =>
    rw [exec, execRet]
    split <;> nofun
  | drw | ldB | storeRegs | loadRegs => exact guardRange_ne_refused r
  | _ => nofun

/-- Settles O50: a stack instruction fails on its bound of `SP`, a memory instruction on its range check, and every other
one completes. -/
theorem instructionErrorsAreExactlyThoseListed : Obligations.InstructionErrorsAreExactlyThoseListed := by
  refine fun i s => ⟨exec_ne_refused i s, fun e => ?_⟩
  cases i with
  | call nnn => simp [exec_call_eq_fault_iff]
  | ret => simp [exec_ret_eq_fault_iff]
  | ldB x => simp [exec_ldB_eq_fault_iff]
  | storeRegs x => simp [exec_storeRegs_eq_fault_iff]
  | loadRegs x => simp [exec_loadRegs_eq_fault_iff]
  | drw x y n => simp [exec_drw_eq_fault_iff]
  | _ => exact iff_of_false nofun (by simp)

/-! ## What an error of `step` leaves and reports (R253, R279) -/

section
variable {s : State}

theorem stateAfterError_step_of_fetch (hpc : s.pc.toNat ≤ 0xFFE) : stateAfterError .step s = s.advancePc :=
  if_pos ((inRange_iff _ _).mpr (by omega))

theorem diagnostics_step_of_fetch (hpc : s.pc.toNat ≤ 0xFFE) :
    diagnostics .step s = ⟨some (s.wordAt s.pc.toNat), some s.pc⟩ := by
  rw [diagnostics, if_pos ((inRange_iff _ _).mpr (by omega))]

theorem stateAfterError_step_of_failed_fetch (hpc : 0xFFE < s.pc.toNat) : stateAfterError .step s = s :=
  if_neg (by rw [inRange_iff]; omega)

theorem diagnostics_step_of_failed_fetch (hpc : 0xFFE < s.pc.toNat) : diagnostics .step s = ⟨none, some s.pc⟩ := by
  rw [diagnostics, if_neg (by rw [inRange_iff]; omega)]

end

theorem onlyChanges_stateAfterError_step (s : State) : OnlyChanges (· = .pc) s (stateAfterError .step s) := by
  rcases Nat.lt_or_ge 0xFFE s.pc.toNat with hpc | hpc
  · rw [stateAfterError_step_of_failed_fetch hpc]
    exact OnlyChanges.refl _ s
  · rw [stateAfterError_step_of_fetch hpc]
    exact onlyChanges_setPc s _

/-- Settles O49: the state left and the diagnostics turn on whether the fetch was in range, not on the error. -/
theorem stepErrorsArePrecise : Obligations.StepErrorsArePrecise := by
  refine fun s _ _ => ⟨onlyChanges_stateAfterError_step s, rfl, fun hpc => ⟨?_, ?_⟩, fun hpc => ⟨?_, ?_⟩⟩
  · rw [stateAfterError_step_of_fetch hpc, State.advancePc_pc]
    bv_omega
  · rw [diagnostics_step_of_fetch hpc]
  · rw [stateAfterError_step_of_failed_fetch hpc]
  · rw [diagnostics_step_of_failed_fetch hpc]

/-- Settles O6: the fetch, then the failed decoding. -/
theorem stepOnIllegalWordRaisesUnknownOpcode : Obligations.StepOnIllegalWordRaisesUnknownOpcode := by
  rintro s w hmode hpc rfl hillegal
  refine ⟨?_, ?_, onlyChanges_stateAfterError_step s, diagnostics_step_of_fetch hpc⟩
  · exact (step_fetch hmode hpc).trans (runWord_none hillegal _)
  · rw [stateAfterError_step_of_fetch hpc, State.advancePc_pc]

/-! ## `load` (R271, R302) -/

theorem load_of_too_large {bytes : List Byte} (h : 3584 < bytes.length) (s : State) :
    load bytes s = .fault .programTooLarge :=
  if_neg (by simpa [programFits] using h)

/-- Settles O45: the length check fails, and what a failed load leaves and reports does not depend on the bytes. -/
theorem loadTooLargeFails : Obligations.LoadTooLargeFails :=
  fun _ s hlarge => ⟨load_of_too_large hlarge s, rfl, rfl⟩

/-! ## The driver's policy (R280) -/

theorem performUnder_skip_of_fault {op : Operation} {s : State} {e : Fault} (h : perform op s = .fault e) :
    performUnder .skip op s = .next (stateAfterError op s) := by
  simp only [performUnder, h]

/-- An error under `halt` ends the run, whichever operation raised it. -/
theorem runSchedule_halt_of_fault {op : Operation} {s : State} {e : Fault} (h : perform op s = .fault e)
    (ops : List Operation) : runSchedule .halt (op :: ops) s = .fault e := by
  rw [runSchedule, performUnder_halt, h]

/-- An error under `skip` is passed over, whichever operation raised it. -/
theorem runSchedule_skip_of_fault {op : Operation} {s : State} {e : Fault} (h : perform op s = .fault e)
    (ops : List Operation) : runSchedule .skip (op :: ops) s = runSchedule .skip ops (stateAfterError op s) := by
  rw [runSchedule, performUnder_skip_of_fault h]

/-- Settles O51: the case of `step`. -/
theorem faultPolicyHaltsOrSkips : Obligations.FaultPolicyHaltsOrSkips :=
  fun _ _ ops h => ⟨runSchedule_halt_of_fault (op := .step) h ops, runSchedule_skip_of_fault (op := .step) h ops⟩

end Sys2Proof.Machine
end

section
/-! SUPPORT. Proofs of the statements about reset and hazards (spec 70_reset_and_hazards.md): the timers apart from the
steps, and the first step of a core that holds no program. -/

namespace Sys2Proof.Machine

/-! ## The timers apart from the steps (R308) -/

/-- An effect that is not allowed to write `ST` leaves it alone, whatever memory holds. -/
theorem Effect.st_eq {P : Component → Prop} {s t : State} (h : Effect P s t) (hP : ¬P .st) : t.st = s.st := by
  cases h with
  | sound hs => exact absurd hs hP
  | call hu =>
    obtain ⟨_, rfl⟩ := State.push_some hu
    rfl
  | ret hu =>
    obtain ⟨_, _, rfl⟩ := State.pop_some hu
    rfl
  | skip | storeInc | loadInc => simp
  | _ => rfl

/-- A step that executes no `LD ST, VX` leaves `ST` alone, as `step_dt_eq` says of `DT`. -/
theorem step_st_eq {s t : State} (h : step s = .next t)
    (hno : s.mode = .running → ∀ x, decode (s.wordAt s.pc.toNat) ≠ some (.ldStVx x)) : t.st = s.st := by
  obtain ⟨_, _, rfl⟩ | ⟨hmode, _, i, hi, hexec⟩ := step_next h
  · rfl
  · exact (exec_effect hexec).st_eq fun ⟨x, hx⟩ => hno hmode x (hx ▸ hi)

/-- Settles O41: a step that fetched no write of a timer leaves that timer alone, and a tick writes the timers only. -/
theorem timersAreDecoupledFromSteps : Obligations.TimersAreDecoupledFromSteps := by
  refine ⟨fun s t h => ⟨fun hdt => ?_, fun hst => ?_⟩, fun s => ?_⟩
  · by_contra hno
    exact hdt (step_dt_eq h fun _ => not_exists.mp hno)
  · by_contra hno
    exact hst (step_st_eq h fun _ => not_exists.mp hno)
  · obtain ⟨_, _, _, hframe⟩ := tickDecrementsBothTimers s
    exact hframe

/-! ## A core without a program (R310) -/

/-- Above the font a constructed core's memory is zero, so a fetch there reads the word 0x0000 (R37). -/
theorem State.new_wordAt (cfg : CoreConfig) {a : Nat} (ha : 80 ≤ a) : (State.new cfg).wordAt a = 0x0000 := by
  rw [State.wordAt, State.new_readByte, State.new_readByte, resetByte_fill _ ha, resetByte_fill _ (by omega)]
  rfl

/-- Settles O48: the first fetch is in range and reads 0x0000, which is no instruction. -/
theorem stepWithNoProgramRaises : Obligations.StepWithNoProgramRaises := by
  intro cfg
  have hpc : (State.new cfg).pc.toNat ≤ 0xFFE := by
    change 0x200 ≤ 0xFFE
    decide
  have hword : (State.new cfg).wordAt (State.new cfg).pc.toNat = 0x0000 := State.new_wordAt cfg (a := 0x200) (by decide)
  constructor
  · rw [step_fetch rfl hpc, hword]
    exact runWord_none (by decide) _
  · rw [stateAfterError_step_of_fetch hpc]
    rfl

end Sys2Proof.Machine
end
